-- ==== Sys2Proof/Word.lean ====
section
/-! DEFINITION. The bit vectors of the driver (00_scope.md rule R7): a nibble, a byte and a word.
`WORD_W` is fixed at the spec's default of 32 (rule R6, log entry 3). A single bit or line level is a
`Bool`, `true` for level 1 (10_state.md rule R21). -/

namespace Sys2Proof

/-- A 4-bit unsigned value (rule R7). -/
abbrev Nibble := BitVec 4

/-- An 8-bit unsigned value (rule R7). -/
abbrev Byte := BitVec 8

/-- A `WORD_W`-bit unsigned value, `WORD_W` = 32 (rules R6 and R7, D3). -/
abbrev Word := BitVec 32

end Sys2Proof
end

