-- ==== Sys2Proof/Config.lean ====
section
/-! DEFINITION. The configuration of the driver: the parameters the source fixes (00_scope.md rule R5) as
constants, the parameters it leaves open (rule R6) as named fields with the spec's defaults and constraints, and
the attached LCD's timing needs (70_reset_and_hazards.md rule R241). A configuration is plain data; State carries
one, no rule writes it, and a claim about every state is a claim about every configuration (log entry 2). -/

namespace Sys2Proof

/-- `LINES` (R5): display lines. -/
def LINES : Nat := 2
/-- `CHARS_PER_LINE` (R5): character cells per line and the renderer's per-line capacity. -/
def CHARS_PER_LINE : Nat := 16
/-- `TEXT_CAP` (R5): bytes in the request's text buffer. -/
def TEXT_CAP : Nat := 50
/-- `LINE1_BASE` (R5): the address-set instruction of the first cell of line 1. -/
def LINE1_BASE : Byte := 0x80#8
/-- `LINE2_BASE` (R5): the address-set instruction of the first cell of line 2. -/
def LINE2_BASE : Byte := 0xC0#8
/-- `N_PINS` (R5): output lines. -/
def N_PINS : Nat := 6
/-- `N_COMMANDS` (R5): command codes `'0'` to `'5'`. -/
def N_COMMANDS : Nat := 6
/-- `T_INIT1_MIN` (R5): least delay after the first wake step, in ns. -/
def T_INIT1_MIN : Nat := 4100000
/-- `T_INIT2_MIN` (R5): least delay after the second wake step, in ns. -/
def T_INIT2_MIN : Nat := 100000
/-- `T_INIT3_MIN` (R5): least delay after the third wake step, in ns. -/
def T_INIT3_MIN : Nat := 100000

/-- `WAKE_FRAMING` (42_initializer.md rule R138): one frame or one whole byte per wake step. -/
inductive WakeFraming where
  | NIBBLE
  | BYTE
deriving DecidableEq, Repr

/-- `PIN_ID` (R6, 10_state.md rule R21): the platform pin of each of the six roles. No rule reads it. -/
structure PinMap where
  rs : Nat
  e  : Nat
  d4 : Nat
  d5 : Nat
  d6 : Nat
  d7 : Nat
deriving DecidableEq, Repr

/-- The platform pins of a map, one per role. -/
def PinMap.pins (m : PinMap) : List Nat := [m.rs, m.e, m.d4, m.d5, m.d6, m.d7]

/-- What the attached LCD needs, the constraints of 70_reset_and_hazards.md rule R241 (figures of general knowledge;
log entry 9). `attached` is the premise of rule R65 that an LCD is attached and powered. Times in ns. -/
structure LcdNeeds where
  attached    : Bool
  longestInstr : Nat
  rsSetup     : Nat
  eHighWidth  : Nat
  eCycle      : Nat
  supplyWait  : Nat
deriving DecidableEq, Repr

/-- The HD44780's figures of rule R241, the larger one where the rule gives a range. -/
def LcdNeeds.hd44780 : LcdNeeds :=
  { attached := true, longestInstr := 1520000, rsSetup := 60, eHighWidth := 450, eCycle := 1000,
    supplyWait := 40000000 }

/-- The open parameters of rule R6, and the LCD the lines are wired to. -/
structure Config where
  tRecovery : Nat
  tSetup    : Nat
  tPulse    : Nat
  tHold     : Nat
  tPowerOn  : Nat
  tInit1 : Nat
  tInit2 : Nat
  tInit3 : Nat
  tInit4 : Nat
  tInit5 : Nat
  tInit6 : Nat
  tInit7 : Nat
  tInit8 : Nat
  tInit9 : Nat
  wakeFraming : WakeFraming
  bFunctionSet8Bit  : Byte
  bFunctionSet4Bit  : Byte
  bFunctionSet2Line : Byte
  bDisplayOff     : Byte
  bClear          : Byte
  bEntryMode      : Byte
  bDisplayDefault : Byte
  bCursorOn       : Byte
  bCursorOff      : Byte
  rsCommand : Bool
  rsData    : Bool
  clkPeriodNs : Nat
  pinId : PinMap
  lcd   : LcdNeeds
deriving DecidableEq, Repr

/-- The defaults of rule R6. `clkPeriodNs` and `pinId` are OPEN there; the values here are this model's
(log entry 2), and no rule reads them. -/
def Config.default : Config where
  tRecovery := 2000000
  tSetup    := 5000
  tPulse    := 5000
  tHold     := 0
  tPowerOn  := 40000000
  tInit1 := 4100000
  tInit2 := 100000
  tInit3 := 100000
  tInit4 := 100000
  tInit5 := 100000
  tInit6 := 100000
  tInit7 := 100000
  tInit8 := 100000
  tInit9 := 100000
  wakeFraming := .NIBBLE
  bFunctionSet8Bit  := 0x30#8
  bFunctionSet4Bit  := 0x20#8
  bFunctionSet2Line := 0x28#8
  bDisplayOff     := 0x08#8
  bClear          := 0x01#8
  bEntryMode      := 0x06#8
  bDisplayDefault := 0x0F#8
  bCursorOn       := 0x0F#8
  bCursorOff      := 0x0C#8
  rsCommand := false
  rsData    := true
  clkPeriodNs := 1
  pinId := { rs := 0, e := 1, d4 := 2, d5 := 3, d6 := 4, d7 := 5 }
  lcd   := LcdNeeds.hd44780

/-- The constraint column of rule R6, less the hazard on `T_RECOVERY`, which `Config.meetsLcd` carries. A value that
fails it is not a configuration of this hardware (rule R139). -/
def Config.ok (c : Config) : Bool :=
  decide (0 < c.tSetup) && decide (0 < c.tPulse)
  && decide (T_INIT1_MIN ≤ c.tInit1) && decide (T_INIT2_MIN ≤ c.tInit2) && decide (T_INIT3_MIN ≤ c.tInit3)
  && (c.rsCommand != c.rsData) && decide (0 < c.clkPeriodNs) && decide c.pinId.pins.Nodup

/-- Every delay is what the attached LCD needs (rule R241). -/
def Config.meetsLcd (c : Config) : Bool :=
  c.lcd.attached
  && decide (c.lcd.longestInstr ≤ c.tRecovery) && decide (c.lcd.rsSetup ≤ c.tSetup)
  && decide (c.lcd.eHighWidth ≤ c.tPulse)
  && decide (c.lcd.eCycle ≤ c.tPulse + c.tHold + c.tRecovery + c.tSetup)
  && decide (T_INIT1_MIN ≤ c.tInit1) && decide (T_INIT2_MIN ≤ c.tInit2) && decide (T_INIT3_MIN ≤ c.tInit3)
  && decide (c.lcd.supplyWait ≤ c.tPowerOn)

/-- The bytes of INIT are those of 30_encoding.md rule R89, under which rule R65's end state is stated. -/
def Config.initBytesStandard (c : Config) : Bool :=
  c.bFunctionSet8Bit == 0x30#8 && c.bFunctionSet4Bit == 0x20#8 && c.bFunctionSet2Line == 0x28#8
  && c.bDisplayOff == 0x08#8 && c.bClear == 0x01#8 && c.bEntryMode == 0x06#8 && c.bDisplayDefault == 0x0F#8

end Sys2Proof
end

