-- ==== Sys2Proof/Syntax.lean ====
section
/-! DEFINITION. The instruction set: one constructor per row of spec/opcode_table.json. The ten REQ10 rows are the
requests of 30_encoding.md rules R81 to R84; the five LCD8 rows are the LCD instruction bytes of rule R89; the FRAME5
row is the frame of rule R87. The request record (rule R82) is no part of the word: it is captured into registers at
acceptance, so the requests have no operand but the bits of the word itself. -/

namespace Sys2Proof

/-- One row of spec/opcode_table.json each. A code field that the request ignores (R81) is kept, so that the word can be
given back. -/
inductive Instr where
  /-- `INIT`: kind 0, any code (R137). -/
  | init (code : BitVec 8)
  /-- `CLEAR`: kind 1, code `'0'` (R176). -/
  | clear
  /-- `PRINT_LINE1`: kind 1, code `'1'` (R177). -/
  | printLine1
  /-- `PRINT_LINE2`: kind 1, code `'2'` (R178). -/
  | printLine2
  /-- `PRINT_AT`: kind 1, code `'3'` (R179). -/
  | printAt
  /-- `CURSOR_ON`: kind 1, code `'4'` (R180). -/
  | cursorOn
  /-- `CURSOR_OFF`: kind 1, code `'5'` (R181). -/
  | cursorOff
  /-- `WRITE`: kind 2, any code (R183). -/
  | write (code : BitVec 8)
  /-- `CMD_UNSUPPORTED`: kind 1, a code that is none of `'0'` to `'5'` (R182, R84). -/
  | cmdUnsupported (code : BitVec 8)
  /-- `REQ3`: the reserved kind 3, any code (R182, R84). -/
  | req3 (code : BitVec 8)
  /-- `lcd.clear`: `00000001` (R89). -/
  | lcdClear
  /-- `lcd.entry_mode`: `000001is` (R89): `i` increment, `s` shift. -/
  | lcdEntryMode (i s : Bool)
  /-- `lcd.display_control`: `00001dcb` (R89): display, cursor, blink on. -/
  | lcdDisplayControl (d c b : Bool)
  /-- `lcd.function_set`: `001wnf00` (R89): 8-bit interface, two lines, font. -/
  | lcdFunctionSet (w n f : Bool)
  /-- `lcd.address_set`: `1aaaaaaa` (R89): the DDRAM address. -/
  | lcdAddressSet (a : BitVec 7)
  /-- `frame`: `rnnnn` (R87): the RS level and the nibble on D7..D4. -/
  | frame (r : Bool) (n : Nibble)
deriving DecidableEq, Repr

/-- The word of an instruction, in the format the table gives its row. The formats travel on different wires: a request
word on `req_kind` and `req_code` (R81), an LCD byte as two frames (R88), a frame on the six lines (R87). -/
inductive Encoded where
  | req10  (w : BitVec 10)
  | lcd8   (b : Byte)
  | frame5 (w : BitVec 5)
deriving DecidableEq, Repr

end Sys2Proof
end

