-- ==== Sys2Proof/WellFormed.lean ====
section
/-! DEFINITION. Which terms of `Instr` stand for a word. The operand types already hold every width; the one further
check is that `CMD_UNSUPPORTED` carries a code that no command row claims (30_encoding.md rule R84). -/

namespace Sys2Proof

/-- The six command codes `'0'` to `'5'` (R83). -/
def commandCodes : List (BitVec 8) := [0x30#8, 0x31#8, 0x32#8, 0x33#8, 0x34#8, 0x35#8]

/-- The term is the meaning of some word (R84: `CMD_UNSUPPORTED` is tried only after the six command rows). -/
def Instr.wellFormed : Instr → Bool
  | .init _ => true
  | .clear => true
  | .printLine1 => true
  | .printLine2 => true
  | .printAt => true
  | .cursorOn => true
  | .cursorOff => true
  | .write _ => true
  | .cmdUnsupported code => !(commandCodes.contains code)
  | .req3 _ => true
  | .lcdClear => true
  | .lcdEntryMode _ _ => true
  | .lcdDisplayControl _ _ _ => true
  | .lcdFunctionSet _ _ _ => true
  | .lcdAddressSet _ => true
  | .frame _ _ => true

end Sys2Proof
end

