-- ==== Sys2Proof/Decode.lean ====
section
/-! DEFINITION. The decoder, total on every word of every format and rejecting by name, and after it the encoder, both
written from 30_encoding.md rules R81, R83, R84, R87 and R89. `decodeTableWord` is the same decoder on a word numbered
as spec/opcode_table.json numbers it. -/

namespace Sys2Proof

/-- Why a word has no instruction. -/
inductive DecodeError where
  /-- Raised by `classify`: the word has a bit set above its format's width. Safe: no row gives such a word a meaning. -/
  | bitsAboveFormat
  /-- Raised by `decodeLcd8`: the byte matches none of the five patterns of R89. Safe: the byte is still sent by
  `sendInstruction` (R125) where a rule computes it. -/
  | noLcdPattern
deriving DecidableEq, Repr

/-- A request of kind CMD: the full 8-bit compare of R83 and R86(a), anything else unsupported (R84). -/
def decodeCommand (code : BitVec 8) : Instr :=
  if code = 0x30#8 then .clear
  else if code = 0x31#8 then .printLine1
  else if code = 0x32#8 then .printLine2
  else if code = 0x33#8 then .printAt
  else if code = 0x34#8 then .cursorOn
  else if code = 0x35#8 then .cursorOff
  else .cmdUnsupported code

/-- A request word `REQ10 = req_kind[1:0] ++ req_code[7:0]` (R81). -/
def decodeReq10 (w : BitVec 10) : Instr :=
  let kind := w.extractLsb' 8 2
  let code := w.extractLsb' 0 8
  if kind = 0#2 then .init code
  else if kind = 1#2 then decodeCommand code
  else if kind = 2#2 then .write code
  else .req3 code

/-- An LCD instruction byte, told apart by its highest set bit (R89). -/
def decodeLcd8 (b : Byte) : Except DecodeError Instr :=
  if b.extractLsb' 7 1 = 1#1 then .ok (.lcdAddressSet (b.extractLsb' 0 7))
  else if b.extractLsb' 5 3 = 1#3 ∧ b.extractLsb' 0 2 = 0#2 then
    .ok (.lcdFunctionSet (b.getLsbD 4) (b.getLsbD 3) (b.getLsbD 2))
  else if b.extractLsb' 3 5 = 1#5 then
    .ok (.lcdDisplayControl (b.getLsbD 2) (b.getLsbD 1) (b.getLsbD 0))
  else if b.extractLsb' 2 6 = 1#6 then .ok (.lcdEntryMode (b.getLsbD 1) (b.getLsbD 0))
  else if b = 1#8 then .ok .lcdClear
  else .error .noLcdPattern

/-- A frame `rnnnn` (R87). -/
def decodeFrame5 (w : BitVec 5) : Instr := .frame (w.getLsbD 4) (w.extractLsb' 0 4)

/-- The decoder. -/
def decode : Encoded → Except DecodeError Instr
  | .req10 w  => .ok (decodeReq10 w)
  | .lcd8 b   => decodeLcd8 b
  | .frame5 w => .ok (decodeFrame5 w)

/-- The byte of each LCD row (R89). -/
def entryModeByte (i s : Bool) : Byte := 0b000001#6 ++ BitVec.ofBool i ++ BitVec.ofBool s
/-- `00001dcb` (R89). -/
def displayControlByte (d c b : Bool) : Byte :=
  0b00001#5 ++ BitVec.ofBool d ++ BitVec.ofBool c ++ BitVec.ofBool b
/-- `001wnf00` (R89). -/
def functionSetByte (w n f : Bool) : Byte :=
  0b001#3 ++ BitVec.ofBool w ++ BitVec.ofBool n ++ BitVec.ofBool f ++ 0b00#2
/-- `1aaaaaaa` (R89). -/
def addressSetByte (a : BitVec 7) : Byte := 0b1#1 ++ a

/-- The encoder: the word of an instruction, from the same tables (R83, R84, R87, R89). -/
def encode : Instr → Encoded
  | .init code => .req10 (0#2 ++ code)
  | .clear => .req10 0x130#10
  | .printLine1 => .req10 0x131#10
  | .printLine2 => .req10 0x132#10
  | .printAt => .req10 0x133#10
  | .cursorOn => .req10 0x134#10
  | .cursorOff => .req10 0x135#10
  | .write code => .req10 (2#2 ++ code)
  | .cmdUnsupported code => .req10 (1#2 ++ code)
  | .req3 code => .req10 (3#2 ++ code)
  | .lcdClear => .lcd8 0b00000001#8
  | .lcdEntryMode i s => .lcd8 (entryModeByte i s)
  | .lcdDisplayControl d c b => .lcd8 (displayControlByte d c b)
  | .lcdFunctionSet w n f => .lcd8 (functionSetByte w n f)
  | .lcdAddressSet a => .lcd8 (addressSetByte a)
  | .frame r n => .frame5 (BitVec.ofBool r ++ n)

/-- The format of a table word of `nbits` bits. The host counts whole bytes, so the 5-bit FRAME5 row may come as 8 bits,
which is also LCD8's width: the row with the longer mask is tried first, as opcode_table.json says of its REQ10 rows, so
an 8-bit word is an LCD8 word where a pattern of R89 matches it, and else a frame if it fits in five bits (log entry 6). -/
def classify (nbits w : Nat) : Except DecodeError Encoded :=
  if nbits ≤ 5 then
    if w < 32 then .ok (.frame5 (BitVec.ofNat 5 w)) else .error .bitsAboveFormat
  else if nbits ≤ 8 then
    if w < 256 then
      match decodeLcd8 (BitVec.ofNat 8 w) with
      | .ok _ => .ok (.lcd8 (BitVec.ofNat 8 w))
      | .error _ =>
        if w < 32 then .ok (.frame5 (BitVec.ofNat 5 w)) else .ok (.lcd8 (BitVec.ofNat 8 w))
    else .error .bitsAboveFormat
  else if w < 1024 then .ok (.req10 (BitVec.ofNat 10 w)) else .error .bitsAboveFormat

/-- The instruction the decoder reads from a table word (bit 0 the least significant). -/
def decodeTableWord (nbits w : Nat) : Option Instr :=
  match classify nbits w with
  | .error _ => none
  | .ok e =>
    match decode e with
    | .ok i => some i
    | .error _ => none

end Sys2Proof
end

