-- ==== Sys2Proof/Machine/State.lean ====
section
/-! DEFINITION. The state of the machine as plain data: the driver's registers (10_state.md rule R20), the inputs the
outside world has scheduled, the position inside a running request (rule R30), the trace (00_scope.md rule R10) and the
ghost sink (20_memory.md rule R61). -/

namespace Sys2Proof.Machine

/-- The six output lines (00_scope.md rule R8). -/
inductive Pin where
  | RS
  | E
  | D4
  | D5
  | D6
  | D7
deriving DecidableEq, Repr

/-- What a transfer addresses (R8). -/
inductive Mode where
  | COMMAND
  | DATA
deriving DecidableEq, Repr

/-- `PINS`: the six one-bit output latches (10_state.md rule R21). -/
structure Pins where
  rs : Bool
  e  : Bool
  d4 : Bool
  d5 : Bool
  d6 : Bool
  d7 : Bool
deriving DecidableEq, Repr

/-- `lifecycle` (R22); the value 3 is never written, so there is no constructor for it (93 U12). -/
inductive Lifecycle where
  | UNINIT
  | READY
  | FAILED
deriving DecidableEq, Repr

/-- `status` (R23); the values 4 to 7 are never written (93 U12). -/
inductive Status where
  | OK
  | UNSUPPORTED
  | SETUP_FAILED
  | BAD_STATE
deriving DecidableEq, Repr

/-- The two diagnostics (R24). -/
inductive DiagKind where
  | LINE_NORMALISED
  | NULL_TEXT
deriving DecidableEq, Repr

/-- `diag` (R24): `diag[0]` and `diag[1]`. -/
structure Diag where
  lineNormalised : Bool
  nullText       : Bool
deriving DecidableEq, Repr

/-- A line of the display, what a normalised line number names (43_cursor_addressing.md rule R150). -/
inductive Line where
  | one
  | two
deriving DecidableEq, Repr

/-- An event of the trace (00_scope.md rule R10). -/
inductive Event where
  | pin (p : Pin) (v : Bool)
  | delay (t : Nat)
  | diag (d : DiagKind)
  | done (s : Status) (g : Diag)
  | reset
deriving DecidableEq, Repr

/-- The primitives a rule is written in (R9): the four with an event, the register writes `x <- v`, which have none, and
the ghost's own step at the end of INIT (20_memory.md rule R65). The execution of a request is a list of these, fixed at
acceptance (10_state.md rule R30). -/
inductive Act where
  | pinWrite (p : Pin) (v : Bool)
  | delay (t : Nat)
  | diag (d : DiagKind)
  | done (s : Status)
  | setLifecycle (l : Lifecycle)
  | setLn (l : Line)
  | setCnt (c : Word)
  | setIdx (i : BitVec 6)
  | setStep (n : BitVec 4)
  | ghostReady
deriving DecidableEq, Repr

/-- What the host presents on the request ports (30_encoding.md rules R80 to R82). -/
structure Request where
  kind        : BitVec 2
  code        : BitVec 8
  setupOk     : Bool
  text        : Vector Byte 50
  textPresent : Bool
  line        : Word
  offset      : Word
deriving DecidableEq, Repr

/-- What the outside world does next (log entries 4 to 7). -/
inductive Input where
  /-- A request presented with `req_valid = 1` (R26). With `hold = none` one step runs it from acceptance to its `Done`;
  with `hold = some k` the step ends after its first `k` events, the driver busy (R30, R233). -/
  | request (r : Request) (hold : Option Nat)
  /-- `sendInstruction` called by itself with an LCD byte: the LCD8 rows of the opcode table (R125). -/
  | byte (b : Byte)
  /-- `sendNibble` called by itself with a frame: the FRAME5 row of the opcode table (R110). -/
  | frame (w : BitVec 5)
  /-- `rst` asserted (70_reset_and_hazards.md rule R230). -/
  | reset
  /-- The LCD is disturbed: it loses power, is unplugged, or falls out of step (60_exceptions.md rules R206, R218). Between the
  events of a held INIT it also costs that INIT its end state (log entry 7). -/
  | lcdLost
  /-- Another agent drives the six lines (93 U8). -/
  | otherAgent
deriving DecidableEq, Repr

/-- The display memory of the ghost: `(address, byte)` pairs in the canonical form of `Memory.wf`. -/
abbrev Memory := List Host.Cell

/-- The ghost sink while it is tracked (20_memory.md rule R61): the LCD in 4-bit interface, two lines, 5×8 font, entry mode
increment without shift. `half` is the latch that waits for its low nibble (R66). -/
structure Lcd where
  ddram : Memory
  ac    : BitVec 7
  disp  : Bool
  cur   : Bool
  blink : Bool
  half  : Option (Bool × Nibble)
deriving DecidableEq, Repr

/-- The complete state. `cfg` is constant. `pending` holds the primitives a running request has still to perform (R30);
`sink` is `none` when the ghost has lost track (`known = 0` of R61). -/
structure State where
  cfg         : Config
  pins        : Pins
  lifecycle   : Lifecycle
  busy        : Bool
  status      : Status
  diag        : Diag
  kind        : BitVec 2
  code        : BitVec 8
  setupOk     : Bool
  text        : Vector Byte 50
  textPresent : Bool
  line        : Word
  offset      : Word
  ln          : Line
  cnt         : Word
  idx         : BitVec 6
  initStep    : BitVec 4
  pending     : List Act
  inputs      : List Input
  trace       : List Event
  sink        : Option Lcd
deriving DecidableEq, Repr

/-- Why the machine stops with a fault. -/
inductive Fault where
  /-- Raised by `step` when `busy = 1` and nothing of the running request is left. No run reaches such a state
  (`Safety.idleOrRunning`). Safe: a stop where the spec has no state. -/
  | lostRequest
deriving DecidableEq, Repr

/-- Why the model gives no meaning. -/
inductive Refusal where
  /-- An instruction with no meaning yet, rejected in `exec`'s arm by its mnemonic. Safe; no arm raises it. -/
  | notModelled (mnemonic : String)
  /-- Raised by `step` when another agent drives the six lines: the spec makes no claim about such a system (93 U8,
  "refuse"). Safe. -/
  | otherAgentOnLines
deriving DecidableEq, Repr

/-- All six lines low. -/
def Pins.low : Pins := { rs := false, e := false, d4 := false, d5 := false, d6 := false, d7 := false }

/-- `diag = 0`. -/
def Diag.clear : Diag := { lineNormalised := false, nullText := false }

/-- The machine right after reset (10_state.md rule R29, 70_reset_and_hazards.md rule R230): the default configuration,
nothing scheduled, no event yet, the LCD unknown. The request and working registers, which the spec leaves unspecified,
hold zero (line 1 for `ln`): log entry 1. -/
def State.reset : State where
  cfg         := Config.default
  pins        := Pins.low
  lifecycle   := .UNINIT
  busy        := false
  status      := .OK
  diag        := Diag.clear
  kind        := 0#2
  code        := 0#8
  setupOk     := false
  text        := Vector.replicate 50 0#8
  textPresent := false
  line        := 0#32
  offset      := 0#32
  ln          := .one
  cnt         := 0#32
  idx         := 0#6
  initStep    := 0#4
  pending     := []
  inputs      := []
  trace       := []
  sink        := none

end Sys2Proof.Machine
end

