-- ==== Sys2Proof/Machine/Memory.lean ====
section
/-! DEFINITION. The LCD's display memory (20_memory.md rules R54, R61 and R63): the 80 DDRAM cells as a list of
`(address, byte)` pairs with strictly rising addresses and no entry equal to what an unlisted address reads as. -/

namespace Sys2Proof.Machine

/-- What an unlisted cell reads as: a space. The ghost is tracked only from rule R65's state on, in which every cell is
0x20, so this is the rule's value (log entry 8). -/
def Memory.blank : Byte := 0x20#8

/-- The DDRAM addresses that exist: 0x00 to 0x27 and 0x40 to 0x67 (R61). -/
def Memory.isCell (a : Nat) : Bool := decide (a ≤ 0x27) || (decide (0x40 ≤ a) && decide (a ≤ 0x67))

/-- The byte of one cell. -/
def Memory.read : Memory → Nat → Byte
  | [], _ => Memory.blank
  | (a, b) :: m, x => if a = x then b else Memory.read m x

/-- Writes one cell, keeping the canonical form. -/
def Memory.write : Memory → Nat → Byte → Memory
  | [], x, v => if v = Memory.blank then [] else [(x, v)]
  | (a, b) :: m, x, v =>
    if a < x then (a, b) :: Memory.write m x v
    else if a = x then (if v = Memory.blank then m else (x, v) :: m)
    else if v = Memory.blank then (a, b) :: m else (x, v) :: (a, b) :: m

/-- The canonical form: addresses strictly rising, every one a cell, no entry that reads as a blank. -/
def Memory.wf : Memory → Bool
  | [] => true
  | [(a, b)] => Memory.isCell a && (b != Memory.blank)
  | (a, b) :: (a', b') :: m =>
    Memory.isCell a && (b != Memory.blank) && decide (a < a') && Memory.wf ((a', b') :: m)

/-- Where the write address goes after a data byte: 0x27 is followed by 0x40 and 0x67 by 0x00 (R63). -/
def Memory.advance (a : BitVec 7) : BitVec 7 :=
  if a = 0x27#7 then 0x40#7 else if a = 0x67#7 then 0#7 else a + 1#7

end Sys2Proof.Machine
end

