-- ==== Sys2Proof/Machine/Sink.lean ====
section
/-! DEFINITION. The ghost sink (20_memory.md rules R61 to R66): what the LCD does with what it latches. `none` is
`known = 0`: the ghost has lost track and no display-level claim holds until the next completed INIT. -/

namespace Sys2Proof.Machine

/-- The step for a command-mode byte, the cases told apart by the highest set bit (R62). -/
def Lcd.instruction (l : Lcd) (b : Byte) : Option Lcd :=
  if b.extractLsb' 7 1 = 1#1 then
    if Memory.isCell (b.extractLsb' 0 7).toNat then some { l with ac := b.extractLsb' 0 7 } else none
  else if b = 0x01#8 then some { l with ddram := [], ac := 0#7 }
  else if b.extractLsb' 3 5 = 1#5 then
    some { l with disp := b.getLsbD 2, cur := b.getLsbD 1, blink := b.getLsbD 0 }
  else if b.extractLsb' 2 6 = 1#6 then (if b = 0x06#8 then some l else none)
  else if b.extractLsb' 5 3 = 1#3 then (if b = 0x28#8 then some l else none)
  else none

/-- The step for a data-mode byte (R63). A write address that is no cell loses track: no run has one. -/
def Lcd.data (l : Lcd) (b : Byte) : Option Lcd :=
  if Memory.isCell l.ac.toNat then
    some { l with ddram := Memory.write l.ddram l.ac.toNat b, ac := Memory.advance l.ac }
  else none

/-- One whole byte in a mode. -/
def Lcd.byte (m : Mode) (l : Lcd) (b : Byte) : Option Lcd :=
  match m with
  | .COMMAND => l.instruction b
  | .DATA => l.data b

/-- The mode an RS level selects (R12(b), R87): the configuration's convention. -/
def modeOf (c : Config) (rs : Bool) : Mode := if rs = c.rsCommand then .COMMAND else .DATA

/-- One latch (R66): high nibble, then low nibble. Two halves under different RS levels are no byte (R129): track is
lost. -/
def Lcd.latch (c : Config) (l : Lcd) (rs : Bool) (n : Nibble) : Option Lcd :=
  match l.half with
  | none => some { l with half := some (rs, n) }
  | some (rs0, hi) =>
    if rs0 = rs then Lcd.byte (modeOf c rs) { l with half := none } (hi ++ n) else none

/-- The LCD after a completed INIT (R65). -/
def Lcd.afterInit : Lcd :=
  { ddram := [], ac := 0#7, disp := true, cur := true, blink := true, half := none }

/-- The sink after a completed INIT: known where rule R65 says so, that is with `WAKE_FRAMING = NIBBLE`, the bytes of R89,
an LCD attached and its timing needs met (R241); lost otherwise (93 U1, D7). -/
def sinkAfterInit (c : Config) : Option Lcd :=
  if c.wakeFraming = .NIBBLE ∧ c.initBytesStandard = true ∧ c.meetsLcd = true then some Lcd.afterInit else none

/-- The DDRAM address of a visible cell, line `k`, column `j` of the sixteen (R64). -/
def cellAddress (k : Line) (j : Fin 16) : Nat :=
  match k with
  | .one => j.val
  | .two => 0x40 + j.val

/-- The code the display shows at line `k`, column `j`: the byte of the cell when the display is on (R64). -/
def Lcd.shown (l : Lcd) (k : Line) (j : Fin 16) : Option Byte :=
  if l.disp then some (Memory.read l.ddram (cellAddress k j)) else none

end Sys2Proof.Machine
end

