-- ==== Sys2Proof/Machine/Operands.lean ====
section
/-! DEFINITION. The operand forms (30_encoding.md rule R86) and the arithmetic of 46_common_laws.md rule R190: text,
line, offset, nibbles, mode. -/

namespace Sys2Proof.Machine

/-- `b[7:4]` (R86(e)). -/
def hiNibble (b : Byte) : Nibble := b.extractLsb' 4 4

/-- `b[3:0]` (R86(e)). -/
def loNibble (b : Byte) : Nibble := b.extractLsb' 0 4

/-- `rs(mode)` (00_scope.md rule R8, 40_nibble_transmitter.md rule R112). -/
def rsLevel (c : Config) : Mode → Bool
  | .COMMAND => c.rsCommand
  | .DATA => c.rsData

/-- `TextRead(i)` (00_scope.md rule R9): the byte `text[i]` of the captured request, `0 ≤ i ≤ 49`. `render` never asks for
an index above 32 (`Laws.renderLoop_reads_below_33`). -/
def textRead (t : Vector Byte 50) (i : Nat) : Byte := t.toList.getD i 0#8

/-- `text[49] <- 0x00`, done at acceptance (44_text_renderer.md rule R162). -/
def terminate (t : Vector Byte 50) : Vector Byte 50 := t.set 49 0#8

/-- The text: the bytes before the first 0x00 (R162). Its length is `L`. -/
def textOf (t : Vector Byte 50) : List Byte := t.toList.takeWhile (· != 0#8)

/-- The line number is 1 or 2, compared on all 32 bits (43_cursor_addressing.md rule R150). -/
def lineInRange (l : Word) : Bool := l == 1#32 || l == 2#32

/-- `norm(l)` less its diagnostic (R150). -/
def norm (l : Word) : Line := if l = 2#32 then .two else .one

/-- The number of a normalised line. -/
def Line.number : Line → Word
  | .one => 1#32
  | .two => 2#32

/-- `base(k)` (R151). -/
def base : Line → Byte
  | .one => LINE1_BASE
  | .two => LINE2_BASE

/-- `trunc_8(base(k) + o)`, the sum formed on natural numbers (R153, R154). -/
def addressByte (k : Line) (o : Word) : Byte := BitVec.ofNat 8 ((base k).toNat + o.toNat)

end Sys2Proof.Machine
end

