-- ==== Sys2Proof/Machine/Flags.lean ====
section
/-! DEFINITION. The flags: the status and diagnostic codes (10_state.md rules R22 to R24, 30_encoding.md rule R91), the
setting of a diagnostic bit, and the response ports (rule R80), which are views of the registers. -/

namespace Sys2Proof.Machine

/-- The code of a lifecycle (R22). -/
def Lifecycle.code : Lifecycle → BitVec 2
  | .UNINIT => 0#2
  | .READY => 1#2
  | .FAILED => 2#2

/-- The code of a status (R23, R91). -/
def Status.code : Status → BitVec 3
  | .OK => 0#3
  | .UNSUPPORTED => 1#3
  | .SETUP_FAILED => 2#3
  | .BAD_STATE => 3#3

/-- The two bits of `diag`, `LINE_NORMALISED` bit 0 and `NULL_TEXT` bit 1 (R24, R91). -/
def Diag.code (g : Diag) : BitVec 2 := BitVec.ofBool g.nullText ++ BitVec.ofBool g.lineNormalised

/-- `Diag(d)` sets the matching bit (00_scope.md rule R9). -/
def Diag.raise (g : Diag) : DiagKind → Diag
  | .LINE_NORMALISED => { g with lineNormalised := true }
  | .NULL_TEXT => { g with nullText := true }

/-- The port `req_ready` equals `not busy` (R80). -/
def State.reqReady (s : State) : Bool := !s.busy

/-- The port `rsp_status` (R80). -/
def State.rspStatus (s : State) : BitVec 3 := s.status.code

/-- The port `rsp_diag` (R80). -/
def State.rspDiag (s : State) : BitVec 2 := s.diag.code

/-- The port `rsp_done` pulses with each `Done` (R80): the last event was one. -/
def State.rspDone (s : State) : Bool :=
  match s.trace.getLast? with
  | some (.done _ _) => true
  | _ => false

end Sys2Proof.Machine
end

