-- ==== Sys2Proof/Machine/Ops.lean ====
section
/-! DEFINITION. The shared operations: the line latches, the primitives of 00_scope.md rule R9 and lists of them,
acceptance (10_state.md rule R26), refusal (60_exceptions.md rule R209) and reset (70_reset_and_hazards.md rules R230 and
R233). The driver has no exception that saves or vectors anything (R209, R212) and nothing to return from (R210): the
refusal is the one operation every instruction shares. -/

namespace Sys2Proof.Machine

/-- The level of a line (R21). -/
def Pins.get (p : Pins) : Pin → Bool
  | .RS => p.rs
  | .E => p.e
  | .D4 => p.d4
  | .D5 => p.d5
  | .D6 => p.d6
  | .D7 => p.d7

/-- `PINS[x] <- v` (R21). -/
def Pins.set (p : Pins) (x : Pin) (v : Bool) : Pins :=
  match x with
  | .RS => { p with rs := v }
  | .E => { p with e := v }
  | .D4 => { p with d4 := v }
  | .D5 => { p with d5 := v }
  | .D6 => { p with d6 := v }
  | .D7 => { p with d7 := v }

/-- `PINS[D7] ++ PINS[D6] ++ PINS[D5] ++ PINS[D4]`, the nibble on the lines (R12, R111). -/
def Pins.nibble (p : Pins) : Nibble :=
  BitVec.ofBool p.d7 ++ BitVec.ofBool p.d6 ++ BitVec.ofBool p.d5 ++ BitVec.ofBool p.d4

/-- `PinWrite(x, v)` (R9). The sink latches at the falling edge of E, a write of 0 to a line that is 1 (R12(a), R113). -/
def pinWrite (x : Pin) (v : Bool) (s : State) : State :=
  { s with
    pins := s.pins.set x v
    trace := s.trace ++ [.pin x v]
    sink := if x = .E ∧ v = false ∧ s.pins.e = true then
        s.sink.bind (fun l => Lcd.latch s.cfg l s.pins.rs s.pins.nibble) else s.sink }

/-- One primitive (R9). -/
def perform (a : Act) (s : State) : State :=
  match a with
  | .pinWrite x v => pinWrite x v s
  | .delay t => { s with trace := s.trace ++ [.delay t] }
  | .diag d => { s with diag := s.diag.raise d, trace := s.trace ++ [.diag d] }
  | .done st => { s with status := st, busy := false, trace := s.trace ++ [.done st s.diag] }
  | .setLifecycle l => { s with lifecycle := l }
  | .setLn l => { s with ln := l }
  | .setCnt c => { s with cnt := c }
  | .setIdx i => { s with idx := i }
  | .setStep n => { s with initStep := n }
  | .ghostReady => { s with sink := sinkAfterInit s.cfg }

/-- The primitives of a list, in order. -/
def performAll : List Act → State → State
  | [], s => s
  | a :: as, s => performAll as (perform a s)

/-- The primitive appends an event to the trace (R9). -/
def Act.isEvent : Act → Bool
  | .pinWrite _ _ => true
  | .delay _ => true
  | .diag _ => true
  | .done _ => true
  | .setLifecycle _ => false
  | .setLn _ => false
  | .setCnt _ => false
  | .setIdx _ => false
  | .setStep _ => false
  | .ghostReady => false

/-- A list of primitives cut after its first `k` events (R30: the position is an index into the list of events). -/
def splitEvents : Nat → List Act → List Act × List Act
  | _, [] => ([], [])
  | 0, a :: as => ([], a :: as)
  | k + 1, a :: as =>
    if a.isEvent then (a :: (splitEvents k as).1, (splitEvents k as).2)
    else (a :: (splitEvents (k + 1) as).1, (splitEvents (k + 1) as).2)

/-- The first `k` events of `acts` are emitted and the rest waits (R30). -/
def emitEvents (k : Nat) (acts : List Act) (s : State) : State :=
  { performAll (splitEvents k acts).1 s with pending := (splitEvents k acts).2 }

/-- Acceptance (R26, R27): every request field is copied into its register, `text[49]` is forced to 0x00, `diag` is
cleared and `busy` set. -/
def accept (r : Request) (s : State) : State :=
  { s with
    kind := r.kind
    code := r.code
    setupOk := r.setupOk
    text := terminate r.text
    textPresent := r.textPresent
    line := r.line
    offset := r.offset
    diag := Diag.clear
    busy := true }

/-- A refusal: the request ends at once with its status and nothing else happens (R209). -/
def refuse (st : Status) : List Act := [.done st]

/-- What every request but INIT begins with: outside `READY` it is refused with `BAD_STATE` (60_exceptions.md rule R203). -/
def whenReady (s : State) (body : List Act) : List Act :=
  if s.lifecycle = .READY then body else refuse .BAD_STATE

/-- Reset (R230, R233): every register at its value after reset, the lines low, a `Reset` event, no `Done` for a request
that was running. The configuration and what the outside world does next are no registers. Reset does nothing to the LCD,
but a reset of a running request (or of a line E that is high) leaves it unknown (R233). -/
def applyReset (s : State) : State :=
  { State.reset with
    cfg := s.cfg
    inputs := s.inputs
    trace := s.trace ++ [.reset]
    sink := if s.busy = true ∨ s.pins.e = true then none else s.sink }

/-- The LCD is disturbed (60_exceptions.md rules R206, R218): nothing is known of it, and an INIT that is running will not make
it known, since R65 assumes an LCD attached and powered. The driver is as it was: only the ghost's own step is struck from what
is left to do. That nothing is known after such an INIT is the model's choice (log entry 7). -/
def loseLcd (s : State) : State :=
  { s with sink := none, pending := s.pending.filter (fun a => a != .ghostReady) }

end Sys2Proof.Machine
end

