-- ==== Sys2Proof/Machine/Nibble.lean ====
section
/-! DEFINITION. The nibble transmitter (40_nibble_transmitter.md) and the meaning of the `frame` row. -/

namespace Sys2Proof.Machine

/-- The eleven events of one frame with RS level `rs` (R110, R111, R87). -/
def sendFrame (c : Config) (rs : Bool) (n : Nibble) : List Act :=
  [ .delay c.tRecovery,
    .pinWrite .D7 (n.getLsbD 3),
    .pinWrite .D6 (n.getLsbD 2),
    .pinWrite .D5 (n.getLsbD 1),
    .pinWrite .D4 (n.getLsbD 0),
    .pinWrite .RS rs,
    .delay c.tSetup,
    .pinWrite .E true,
    .delay c.tPulse,
    .pinWrite .E false,
    .delay c.tHold ]

/-- `sendNibble(n, mode)` (R110). -/
def sendNibble (c : Config) (n : Nibble) (m : Mode) : List Act := sendFrame c (rsLevel c m) n

/-- `frame`: `sendNibble` by itself, the row's `r` being the RS level (R87, R110). It cannot fail and reports nothing. -/
def execFrame (r : Bool) (n : Nibble) (s : State) : Host.Outcome State Fault Refusal :=
  .next (performAll (sendFrame s.cfg r n) s)

end Sys2Proof.Machine
end

