-- ==== Sys2Proof/Machine/Codec.lean ====
section
/-! DEFINITION. The instruction/data codec (41_codec.md) and the meanings of the five LCD instruction rows. -/

namespace Sys2Proof.Machine

/-- A byte in a mode, as two frames, high nibble first (R88, R125, R126). -/
def sendByte (c : Config) (m : Mode) (b : Byte) : List Act :=
  sendNibble c (hiNibble b) m ++ sendNibble c (loNibble b) m

/-- `sendInstruction(b)` (R125). -/
def sendInstruction (c : Config) (b : Byte) : List Act := sendByte c .COMMAND b

/-- `sendCharacter(b)` (R126). -/
def sendCharacter (c : Config) (b : Byte) : List Act := sendByte c .DATA b

/-- `sendInstruction` by itself: 22 events on the lines, no flag written, no refusal (R125). What the LCD does with the
byte is the sink's (R62). -/
def transmit (b : Byte) (s : State) : State := performAll (sendInstruction s.cfg b) s

/-- `lcd.clear` (R89). -/
def execLcdClear (s : State) : Host.Outcome State Fault Refusal := .next (transmit 0b00000001#8 s)

/-- `lcd.entry_mode` (R89). -/
def execLcdEntryMode (i sh : Bool) (s : State) : Host.Outcome State Fault Refusal :=
  .next (transmit (entryModeByte i sh) s)

/-- `lcd.display_control` (R89). -/
def execLcdDisplayControl (d c b : Bool) (s : State) : Host.Outcome State Fault Refusal :=
  .next (transmit (displayControlByte d c b) s)

/-- `lcd.function_set` (R89). -/
def execLcdFunctionSet (w n f : Bool) (s : State) : Host.Outcome State Fault Refusal :=
  .next (transmit (functionSetByte w n f) s)

/-- `lcd.address_set` (R89). -/
def execLcdAddressSet (a : BitVec 7) (s : State) : Host.Outcome State Fault Refusal :=
  .next (transmit (addressSetByte a) s)

end Sys2Proof.Machine
end

