-- ==== Sys2Proof/Machine/Cursor.lean ====
section
/-! DEFINITION. The cursor/addressing engine (43_cursor_addressing.md). It keeps no record of where the cursor is
(R155). -/

namespace Sys2Proof.Machine

/-- The diagnostic of `norm(l)` (R150). -/
def normDiag (l : Word) : List Act := if lineInRange l then [] else [.diag .LINE_NORMALISED]

/-- `setLineStart(l)` (R152). -/
def setLineStart (c : Config) (l : Word) : List Act :=
  normDiag l ++ sendInstruction c (base (norm l))

/-- `setPosition(l, o)` (R153). -/
def setPosition (c : Config) (l o : Word) : List Act :=
  normDiag l ++ sendInstruction c (addressByte (norm l) o)

end Sys2Proof.Machine
end

