-- ==== Sys2Proof/Machine/Render.lean ====
section
/-! DEFINITION. The text renderer (44_text_renderer.md): what `render` does, from the captured text. -/

namespace Sys2Proof.Machine

/-- The loop of `render` (R163), the registers `ln`, `cnt`, `idx` as arguments and every write of them recorded. `fuel` bounds
the passes; 50 is more than the 32 the loop can make (46_common_laws.md rule R191). -/
def renderLoop (c : Config) (t : Vector Byte 50) : Nat → Line → Word → BitVec 6 → List Act
  | 0, _, _, _ => []
  | fuel + 1, ln, cnt, idx =>
    let b := textRead t idx.toNat
    if b = 0#8 then []
    else if CHARS_PER_LINE ≤ cnt.toNat then
      match ln with
      | .one =>
        setLineStart c 2#32 ++ [.setLn .two, .setCnt 0#32] ++ sendCharacter c b
          ++ [.setIdx (idx + 1#6), .setCnt 1#32] ++ renderLoop c t fuel .two 1#32 (idx + 1#6)
      | .two => []
    else
      sendCharacter c b ++ [.setIdx (idx + 1#6), .setCnt (cnt + 1#32)]
        ++ renderLoop c t fuel ln (cnt + 1#32) (idx + 1#6)

/-- `render(startLine, startOffset)` with the text present (R163). -/
def renderText (c : Config) (t : Vector Byte 50) (startLine startOffset : Word) : List Act :=
  normDiag startLine ++ [.setLn (norm startLine)]
    ++ setPosition c (norm startLine).number startOffset
    ++ [.setCnt startOffset, .setIdx 0#6]
    ++ renderLoop c t TEXT_CAP (norm startLine) startOffset 0#6

/-- `render(startLine, startOffset)` (R160, R161, R163). -/
def render (c : Config) (t : Vector Byte 50) (present : Bool) (startLine startOffset : Word) : List Act :=
  if present then renderText c t startLine startOffset else [.diag .NULL_TEXT]

end Sys2Proof.Machine
end

