-- ==== Sys2Proof/Machine/Commands.lean ====
section
/-! DEFINITION. The command dispatcher's requests (45_command_dispatcher.md): what each performs once accepted, and its
meaning. -/

namespace Sys2Proof.Machine

/-- `CLEAR` (R176). -/
def clearActs (s : State) : List Act :=
  whenReady s (sendInstruction s.cfg s.cfg.bClear ++ [.done .OK])

/-- `PRINT_LINE1` (R177). -/
def printLine1Acts (s : State) : List Act :=
  whenReady s (render s.cfg s.text s.textPresent 1#32 0#32 ++ [.done .OK])

/-- `PRINT_LINE2` (R178). -/
def printLine2Acts (s : State) : List Act :=
  whenReady s (render s.cfg s.text s.textPresent 2#32 0#32 ++ [.done .OK])

/-- `PRINT_AT` (R179). -/
def printAtActs (s : State) : List Act :=
  whenReady s (render s.cfg s.text s.textPresent s.line s.offset ++ [.done .OK])

/-- `CURSOR_ON` (R180). -/
def cursorOnActs (s : State) : List Act :=
  whenReady s (sendInstruction s.cfg s.cfg.bCursorOn ++ [.done .OK])

/-- `CURSOR_OFF` (R181). -/
def cursorOffActs (s : State) : List Act :=
  whenReady s (sendInstruction s.cfg s.cfg.bCursorOff ++ [.done .OK])

/-- `WRITE` (R183): the clear, then the print with the text taken as present. -/
def writeActs (s : State) : List Act :=
  whenReady s (sendInstruction s.cfg s.cfg.bClear ++ render s.cfg s.text true 1#32 0#32 ++ [.done .OK])

/-- An unsupported command code (R182). -/
def cmdUnsupportedActs (s : State) : List Act := whenReady s (refuse .UNSUPPORTED)

/-- The reserved kind 3 (R182, R84). -/
def req3Acts (s : State) : List Act := whenReady s (refuse .UNSUPPORTED)

/-- `CLEAR` (R176). -/
def execClear (s : State) : Host.Outcome State Fault Refusal := .next (performAll (clearActs s) s)

/-- `PRINT_LINE1` (R177). -/
def execPrintLine1 (s : State) : Host.Outcome State Fault Refusal := .next (performAll (printLine1Acts s) s)

/-- `PRINT_LINE2` (R178). -/
def execPrintLine2 (s : State) : Host.Outcome State Fault Refusal := .next (performAll (printLine2Acts s) s)

/-- `PRINT_AT` (R179). -/
def execPrintAt (s : State) : Host.Outcome State Fault Refusal := .next (performAll (printAtActs s) s)

/-- `CURSOR_ON` (R180). -/
def execCursorOn (s : State) : Host.Outcome State Fault Refusal := .next (performAll (cursorOnActs s) s)

/-- `CURSOR_OFF` (R181). -/
def execCursorOff (s : State) : Host.Outcome State Fault Refusal := .next (performAll (cursorOffActs s) s)

/-- `WRITE` (R183); the code is ignored (R81). -/
def execWrite (s : State) : Host.Outcome State Fault Refusal := .next (performAll (writeActs s) s)

/-- `CMD_UNSUPPORTED` (R182): `Done(UNSUPPORTED)` and nothing else. -/
def execCmdUnsupported (s : State) : Host.Outcome State Fault Refusal :=
  .next (performAll (cmdUnsupportedActs s) s)

/-- `REQ3` (R182): `Done(UNSUPPORTED)` and nothing else. -/
def execReq3 (s : State) : Host.Outcome State Fault Refusal := .next (performAll (req3Acts s) s)

end Sys2Proof.Machine
end

