-- ==== Sys2Proof/Machine/Init.lean ====
section
/-! DEFINITION. The controller initialiser (42_initializer.md) and the meaning of `INIT`. -/

namespace Sys2Proof.Machine

/-- `wake(b)` (R138). -/
def wake (c : Config) (b : Byte) : List Act :=
  match c.wakeFraming with
  | .NIBBLE => sendNibble c (hiNibble b) .COMMAND
  | .BYTE => sendInstruction c b

/-- One pass of the loop of R137. -/
def initPass (k : BitVec 4) (emit : List Act) (t : Nat) : List Act := .setStep k :: emit ++ [.delay t]

/-- `INIT` with `setup_ok = 1` (R137): the power-on wait, the nine steps with their delays, `lifecycle <- READY`,
`Done(OK)`. The ghost's own step (R65) stands just before `lifecycle <- READY` (log entry 5); an LCD that is lost while INIT runs
takes it out of what is left (`loseLcd`, log entry 7). -/
def initSequence (c : Config) : List Act :=
  [.delay c.tPowerOn]
    ++ initPass 1#4 (wake c c.bFunctionSet8Bit) c.tInit1
    ++ initPass 2#4 (wake c c.bFunctionSet8Bit) c.tInit2
    ++ initPass 3#4 (wake c c.bFunctionSet8Bit) c.tInit3
    ++ initPass 4#4 (wake c c.bFunctionSet4Bit) c.tInit4
    ++ initPass 5#4 (sendInstruction c c.bFunctionSet2Line) c.tInit5
    ++ initPass 6#4 (sendInstruction c c.bDisplayOff) c.tInit6
    ++ initPass 7#4 (sendInstruction c c.bClear) c.tInit7
    ++ initPass 8#4 (sendInstruction c c.bEntryMode) c.tInit8
    ++ initPass 9#4 (sendInstruction c c.bDisplayDefault) c.tInit9
    ++ [.ghostReady, .setLifecycle .READY, .done .OK]

/-- What an accepted `INIT` performs, its checks in the order of 45_command_dispatcher.md rule R175 (R136, R142). -/
def initActs (s : State) : List Act :=
  if s.lifecycle ≠ .UNINIT then refuse .BAD_STATE
  else if s.setupOk = false then .setLifecycle .FAILED :: refuse .SETUP_FAILED
  else initSequence s.cfg

/-- `INIT` (R135 to R142); the code is ignored (R81). -/
def execInit (s : State) : Host.Outcome State Fault Refusal := .next (performAll (initActs s) s)

end Sys2Proof.Machine
end

