-- ==== Sys2Proof/Machine/Dispatch.lean ====
section
/-! DEFINITION. One arm per constructor of `Instr`. -/

namespace Sys2Proof.Machine

def exec (i : Instr) (s : State) : Host.Outcome State Fault Refusal :=
  match i with
  -- the requests (REQ10)
  | .init _ => Sys2Proof.Machine.execInit s
  | .clear => Sys2Proof.Machine.execClear s
  | .printLine1 => Sys2Proof.Machine.execPrintLine1 s
  | .printLine2 => Sys2Proof.Machine.execPrintLine2 s
  | .printAt => Sys2Proof.Machine.execPrintAt s
  | .cursorOn => Sys2Proof.Machine.execCursorOn s
  | .cursorOff => Sys2Proof.Machine.execCursorOff s
  | .write _ => Sys2Proof.Machine.execWrite s
  | .cmdUnsupported _ => Sys2Proof.Machine.execCmdUnsupported s
  | .req3 _ => Sys2Proof.Machine.execReq3 s
  -- the LCD instruction bytes (LCD8)
  | .lcdClear => Sys2Proof.Machine.execLcdClear s
  | .lcdEntryMode i1 sh => Sys2Proof.Machine.execLcdEntryMode i1 sh s
  | .lcdDisplayControl d c b => Sys2Proof.Machine.execLcdDisplayControl d c b s
  | .lcdFunctionSet w n f => Sys2Proof.Machine.execLcdFunctionSet w n f s
  | .lcdAddressSet a => Sys2Proof.Machine.execLcdAddressSet a s
  -- the frame (FRAME5)
  | .frame r n => Sys2Proof.Machine.execFrame r n s

end Sys2Proof.Machine
end

