-- ==== Sys2Proof/Machine/Script.lean ====
section
/-! DEFINITION. The list of primitives an instruction performs, as a function of the state at acceptance (10_state.md rule
R30): what a held request has still to do is a tail of it. `Laws.exec_eq_performAll` says that `exec` performs it whole. -/

namespace Sys2Proof.Machine

/-- What instruction `i`, accepted in state `s`, performs. -/
def actsOf (i : Instr) (s : State) : List Act :=
  match i with
  | .init _ => initActs s
  | .clear => clearActs s
  | .printLine1 => printLine1Acts s
  | .printLine2 => printLine2Acts s
  | .printAt => printAtActs s
  | .cursorOn => cursorOnActs s
  | .cursorOff => cursorOffActs s
  | .write _ => writeActs s
  | .cmdUnsupported _ => cmdUnsupportedActs s
  | .req3 _ => req3Acts s
  | .lcdClear => sendInstruction s.cfg 0b00000001#8
  | .lcdEntryMode i sh => sendInstruction s.cfg (entryModeByte i sh)
  | .lcdDisplayControl d c b => sendInstruction s.cfg (displayControlByte d c b)
  | .lcdFunctionSet w n f => sendInstruction s.cfg (functionSetByte w n f)
  | .lcdAddressSet a => sendInstruction s.cfg (addressSetByte a)
  | .frame r n => sendFrame s.cfg r n

/-- The request word `REQ10 = req_kind ++ req_code` (30_encoding.md rule R81). -/
def Request.word (r : Request) : BitVec 10 := r.kind ++ r.code

/-- A request accepted and run: to its `Done` (`hold = none`), or for its first `k` events (R30). -/
def runRequest (r : Request) (hold : Option Nat) (s : State) : Host.Outcome State Fault Refusal :=
  match hold with
  | none => exec (decodeReq10 r.word) (accept r s)
  | some k => .next (emitEvents k (actsOf (decodeReq10 r.word) (accept r s)) (accept r s))

/-- `sendInstruction` called by itself: the LCD8 row the byte decodes to, and a byte of no row is sent all the same (R125). -/
def runByte (b : Byte) (s : State) : Host.Outcome State Fault Refusal :=
  match decodeLcd8 b with
  | .ok i => exec i s
  | .error _ => .next (transmit b s)

/-- `sendNibble` called by itself (R110). -/
def runFrame (w : BitVec 5) (s : State) : Host.Outcome State Fault Refusal := exec (decodeFrame5 w) s

/-- A running request emits its next event (R30). -/
def resume (s : State) : Host.Outcome State Fault Refusal :=
  match s.pending with
  | [] => .fault .lostRequest
  | a :: as => .next (emitEvents 1 (a :: as) s)

/-- A driver that is not busy takes what is presented, and otherwise waits (R26, R230). -/
def whenIdle (s : State) : Host.Outcome State Fault Refusal :=
  match s.inputs with
  | .request r hold :: rest => runRequest r hold { s with inputs := rest }
  | .byte b :: rest => runByte b { s with inputs := rest }
  | .frame w :: rest => runFrame w { s with inputs := rest }
  | _ => .next s

/-- The record of a request whose fields are those the registers hold. -/
def State.recordWith (s : State) (w : BitVec 10) : Request :=
  { kind := w.extractLsb' 8 2, code := w.extractLsb' 0 8, setupOk := s.setupOk, text := s.text,
    textPresent := s.textPresent, line := s.line, offset := s.offset }

/-- How a word reaches the driver: a request word on the request channel, with the record the registers hold; an LCD byte
or a frame as a call of the codec or the transmitter. -/
def presentAs (e : Encoded) (s : State) : Input :=
  match e with
  | .req10 w => .request (s.recordWith w) none
  | .lcd8 b => .byte b
  | .frame5 w => .frame w

/-- The driver idle, with `x` as what the outside world does next. -/
def State.offer (s : State) (x : Input) : State :=
  { s with busy := false, pending := [], inputs := x :: s.inputs }

end Sys2Proof.Machine
end

