-- ==== Sys2Proof/Machine/Step.lean ====
section
/-! DEFINITION. One step. What comes from outside at any time is looked at first: reset (70_reset_and_hazards.md rule R233),
a disturbed LCD, another agent on the lines. Then a busy driver goes on with its request and an idle one takes what is
presented (10_state.md rule R26). -/

namespace Sys2Proof.Machine

def step (s : State) : Host.Outcome State Fault Refusal :=
  match s.inputs with
  | .reset :: rest => .next (applyReset { s with inputs := rest })
  | .lcdLost :: rest => .next (loseLcd { s with inputs := rest })
  | .otherAgent :: _ => .refused .otherAgentOnLines
  | _ => if s.busy then resume s else whenIdle s

/-- The table word presented where the next step takes it, the driver idle (log entry 6). -/
def State.withFetchWord (s : State) (nbits w : Nat) : State :=
  match classify nbits w with
  | .ok e => s.offer (presentAs e s)
  | .error _ => s

end Sys2Proof.Machine
end

