-- ==== Sys2Proof/Machine/Requests.lean ====
section
/-! DEFINITION. The requests as the spec writes them, one definition per line of its request syntax (30_encoding.md rule
R92). A field a request ignores is written zero. -/

namespace Sys2Proof.Machine

/-- A text at `req_text[0..]`, the rest of the buffer 0x00 (R92). -/
def textBuffer (t : List Byte) : Vector Byte 50 := Vector.ofFn (fun i => t.getD i.val 0#8)

/-- The fields of a request that reads none. -/
def Request.bare (kind : BitVec 2) (code : BitVec 8) : Request :=
  { kind := kind, code := code, setupOk := false, text := textBuffer [], textPresent := false, line := 0#32,
    offset := 0#32 }

/-- `"text"`, or `null` (R92). -/
def Request.withText (r : Request) : Option (List Byte) → Request
  | some t => { r with text := textBuffer t, textPresent := true }
  | none => { r with textPresent := false }

/-- `INIT ok`, `INIT fail`. -/
def Request.init (ok : Bool) : Request := { Request.bare 0#2 0#8 with setupOk := ok }
/-- `CLEAR`. -/
def Request.clear : Request := Request.bare 1#2 0x30#8
/-- `PRINT_LINE1 "text"`, `PRINT_LINE1 null`. -/
def Request.printLine1 (t : Option (List Byte)) : Request := (Request.bare 1#2 0x31#8).withText t
/-- `PRINT_LINE2 "text"`, `PRINT_LINE2 null`. -/
def Request.printLine2 (t : Option (List Byte)) : Request := (Request.bare 1#2 0x32#8).withText t
/-- `PRINT_AT line, offset, "text"`, `PRINT_AT line, offset, null`. -/
def Request.printAt (line offset : Word) (t : Option (List Byte)) : Request :=
  { (Request.bare 1#2 0x33#8).withText t with line := line, offset := offset }
/-- `CURSOR_ON`. -/
def Request.cursorOn : Request := Request.bare 1#2 0x34#8
/-- `CURSOR_OFF`. -/
def Request.cursorOff : Request := Request.bare 1#2 0x35#8
/-- `WRITE "text"`. -/
def Request.write (t : List Byte) : Request := (Request.bare 2#2 0#8).withText (some t)
/-- `CMD 0xNN`. -/
def Request.cmd (code : BitVec 8) : Request := Request.bare 1#2 code
/-- `REQ3`. -/
def Request.req3 : Request := Request.bare 3#2 0#8

/-- A request presented and run to its `Done` in one step. -/
def Input.ask (r : Request) : Input := .request r none

end Sys2Proof.Machine
end

