-- ==== Sys2Proof/Machine/Streams.lean ====
section
/-! DEFINITION. The derived streams of a trace (00_scope.md rules R10 to R12): the latch stream, the byte stream, the least
time and the timed waveform. They are observations; no rule of the driver reads them. -/

namespace Sys2Proof.Machine

/-- What the LCD takes at one falling edge of E (R12(a)). -/
structure Latch where
  rs : Bool
  n  : Nibble
deriving DecidableEq, Repr

/-- The latch stream of a trace that begins with the lines at `p` (R12(a)). Reset drives the lines low and its falling edge
is no element of the stream. -/
def latchStream (p : Pins) : List Event → List Latch
  | [] => []
  | .pin x v :: es =>
    if x = .E ∧ v = false ∧ p.e = true then { rs := p.rs, n := p.nibble } :: latchStream (p.set x v) es
    else latchStream (p.set x v) es
  | .delay _ :: es => latchStream p es
  | .diag _ :: es => latchStream p es
  | .done _ _ :: es => latchStream p es
  | .reset :: es => latchStream Pins.low es

/-- An element of a byte stream: `I(b)`, `C(b)` or the wake nibble `W(n)` (R12(b), R12(c)). -/
inductive Sent where
  | instr (b : Byte)
  | char (b : Byte)
  | wake (n : Nibble)
deriving DecidableEq, Repr

/-- A byte in a mode. -/
def Sent.ofByte (m : Mode) (b : Byte) : Sent :=
  match m with
  | .COMMAND => .instr b
  | .DATA => .char b

/-- The latch stream of codec calls paired into bytes (R12(b)); `none` where it is not made of whole bytes. -/
def pairLatches (c : Config) : List Latch → Option (List Sent)
  | [] => some []
  | [_] => none
  | x :: y :: ls =>
    if x.rs = y.rs then (pairLatches c ls).map (Sent.ofByte (modeOf c x.rs) (x.n ++ y.n) :: ·) else none

/-- The byte stream of a request other than INIT (R12(b)). -/
def byteStream (c : Config) (p : Pins) (es : List Event) : Option (List Sent) := pairLatches c (latchStream p es)

/-- The byte stream of INIT: under `WAKE_FRAMING = NIBBLE` the four wake steps are single nibbles (R12(c), R138). -/
def initByteStream (c : Config) (p : Pins) (es : List Event) : Option (List Sent) :=
  match c.wakeFraming with
  | .NIBBLE =>
    (pairLatches c ((latchStream p es).drop 4)).map (((latchStream p es).take 4).map (fun x => Sent.wake x.n) ++ ·)
  | .BYTE => byteStream c p es

/-- The least time a trace takes: the sum of its delays (R11, R190). -/
def leastTime : List Event → Nat
  | [] => 0
  | .delay t :: es => t + leastTime es
  | .pin _ _ :: es => leastTime es
  | .diag _ :: es => leastTime es
  | .done _ _ :: es => leastTime es
  | .reset :: es => leastTime es

/-- Each `Pin` event with the sum of the delays since the `Pin` event before it; `acc` is what has gone by. -/
def timedPins (acc : Nat) : List Event → List (Nat × Pin × Bool)
  | [] => []
  | .delay t :: es => timedPins (acc + t) es
  | .pin x v :: es => (acc, x, v) :: timedPins 0 es
  | .diag _ :: es => timedPins acc es
  | .done _ _ :: es => timedPins acc es
  | .reset :: es => timedPins acc es

/-- The timed waveform (R11): the `Pin` events and the least time between each adjacent pair. -/
def waveform (es : List Event) : List (Nat × Pin × Bool) :=
  match timedPins 0 es with
  | [] => []
  | (_, x, v) :: r => (0, x, v) :: r

/-- The events with a place in the order R10 compares: all but the delays. R10 names the `Diag` and `Done` events and speaks of
sequences of requests; that a `Reset` event is compared too, in its place, is the model's choice (log entry 16). -/
def Event.isMark : Event → Bool
  | .delay _ => false
  | _ => true

/-- Two traces are equivalent (R10): the same timed waveform, and the same other events in the same order relative to the pin
changes, `Reset` events among them (log entry 16). -/
def TraceEquiv (t u : List Event) : Prop :=
  waveform t = waveform u ∧ t.filter Event.isMark = u.filter Event.isMark

/-- The least time before each falling edge of E since the one before it, or since the start for the first
(20_memory.md rule R57). `e` is the level of E at the start, `acc` what has gone by. -/
def fallGaps (e : Bool) (acc : Nat) : List Event → List Nat
  | [] => []
  | .delay t :: es => fallGaps e (acc + t) es
  | .pin x v :: es =>
    if x = .E then (if e = true ∧ v = false then acc :: fallGaps false 0 es else fallGaps v acc es)
    else fallGaps e acc es
  | .diag _ :: es => fallGaps e acc es
  | .done _ _ :: es => fallGaps e acc es
  | .reset :: es => fallGaps false acc es

end Sys2Proof.Machine
end

