-- ==== Sys2Proof/Safety.lean ====
section
/-! DEFINITION. The terms the claims use: the events of a frame and of a byte written out from the spec, the byte stream of a
render in closed form, the lines and the sink after a frame, and the invariants of a run. -/

namespace Sys2Proof.Machine

/-! ### What a transfer leaves in the trace, on the lines and in the sink -/

/-- The eleven events of one frame (40_nibble_transmitter.md rule R110). -/
def frameEvents (c : Config) (rs : Bool) (n : Nibble) : List Event :=
  [.delay c.tRecovery, .pin .D7 (n.getLsbD 3), .pin .D6 (n.getLsbD 2), .pin .D5 (n.getLsbD 1), .pin .D4 (n.getLsbD 0),
   .pin .RS rs, .delay c.tSetup, .pin .E true, .delay c.tPulse, .pin .E false, .delay c.tHold]

/-- The 22 events of one byte: the high nibble's frame, then the low nibble's (41_codec.md rules R125 and R126). -/
def byteEvents (c : Config) (m : Mode) (b : Byte) : List Event :=
  frameEvents c (rsLevel c m) (b.extractLsb' 4 4) ++ frameEvents c (rsLevel c m) (b.extractLsb' 0 4)

/-- The events of one element of a byte stream. -/
def sentEvents (c : Config) : Sent → List Event
  | .instr b => byteEvents c .COMMAND b
  | .char b => byteEvents c .DATA b
  | .wake n => frameEvents c c.rsCommand n

/-- The events of a byte stream. -/
def streamEvents (c : Config) (xs : List Sent) : List Event := xs.flatMap (sentEvents c)

/-- `T_NIB`, the least time of one frame (R116). -/
def tNib (c : Config) : Nat := c.tRecovery + c.tSetup + c.tPulse + c.tHold

/-- The lines after a frame (R115). -/
def framePins (rs : Bool) (n : Nibble) : Pins :=
  { rs := rs, e := false, d4 := n.getLsbD 0, d5 := n.getLsbD 1, d6 := n.getLsbD 2, d7 := n.getLsbD 3 }

/-- The lines after a byte: those of its second frame. -/
def bytePins (c : Config) (m : Mode) (b : Byte) : Pins := framePins (rsLevel c m) (b.extractLsb' 0 4)

/-- The lines after one element of a byte stream. -/
def sentPins (c : Config) : Sent → Pins
  | .instr b => bytePins c .COMMAND b
  | .char b => bytePins c .DATA b
  | .wake n => framePins c.rsCommand n

/-- The lines after a byte stream: those of its last element. -/
def streamPins (c : Config) (p : Pins) (xs : List Sent) : Pins :=
  match xs.getLast? with
  | some x => sentPins c x
  | none => p

/-- The sink after one latch. -/
def latchSink (c : Config) (rs : Bool) (n : Nibble) (k : Option Lcd) : Option Lcd :=
  k.bind (fun l => Lcd.latch c l rs n)

/-- The sink after the two latches of a byte. -/
def byteSink (c : Config) (m : Mode) (b : Byte) (k : Option Lcd) : Option Lcd :=
  latchSink c (rsLevel c m) (b.extractLsb' 0 4) (latchSink c (rsLevel c m) (b.extractLsb' 4 4) k)

/-- The sink after one element of a byte stream. -/
def sentSink (c : Config) (k : Option Lcd) : Sent → Option Lcd
  | .instr b => byteSink c .COMMAND b k
  | .char b => byteSink c .DATA b k
  | .wake n => latchSink c c.rsCommand n k

/-- The sink after a byte stream. -/
def streamSink (c : Config) (k : Option Lcd) (xs : List Sent) : Option Lcd := xs.foldl (sentSink c) k

/-- The sink after a latch stream. -/
def latchesSink (c : Config) (k : Option Lcd) (ls : List Latch) : Option Lcd :=
  ls.foldl (fun k x => latchSink c x.rs x.n k) k

/-- The lines after a trace that begins with the lines at `p` (10_state.md rule R21). -/
def pinsAfter (p : Pins) : List Event → Pins
  | [] => p
  | .pin x v :: es => pinsAfter (p.set x v) es
  | .delay _ :: es => pinsAfter p es
  | .diag _ :: es => pinsAfter p es
  | .done _ _ :: es => pinsAfter p es
  | .reset :: es => pinsAfter Pins.low es

/-! ### The closed form of a render -/

/-- The byte stream of `render` with the text present, from the normalised line, the offset and the text
(44_text_renderer.md rule R169). `16 - o` is `room`, 0 for an offset of 16 or more. -/
def renderSent (k : Line) (o : Word) (t : List Byte) : List Sent :=
  match k with
  | .one =>
    if t.length ≤ 16 - o.toNat then .instr (addressByte .one o) :: t.map Sent.char
    else .instr (addressByte .one o) :: (t.take (16 - o.toNat)).map Sent.char
      ++ .instr 0xC0#8 :: ((t.drop (16 - o.toNat)).take 16).map Sent.char
  | .two => .instr (addressByte .two o) :: (t.take (16 - o.toNat)).map Sent.char

/-- How many bytes a `render` with the text present sends: normalised line `k`, offset `o`, `n` characters (R169). -/
def renderCount (k : Line) (o n : Nat) : Nat :=
  match k with
  | .one => if n ≤ 16 - o then 1 + n else 2 + (16 - o) + min (n - (16 - o)) 16
  | .two => 1 + min n (16 - o)

/-- The character a render leaves in the cell at DDRAM address `a`, if it writes there: line `k`, offset `o < 16`, text `t` (R169,
20_memory.md rules R63 and R64). -/
def printedAt (k : Line) (o : Nat) (t : List Byte) (a : Nat) : Option Byte :=
  match k with
  | .one =>
    if o ≤ a ∧ a < 16 then t[a - o]?
    else if 0x40 ≤ a ∧ a < 0x50 then t[(16 - o) + (a - 0x40)]?
    else none
  | .two => if 0x40 + o ≤ a ∧ a < 0x50 then t[a - (0x40 + o)]? else none

/-- The element is a command-mode byte. -/
def Sent.isInstr : Sent → Bool
  | .instr _ => true
  | .char _ => false
  | .wake _ => false

/-- The data bytes of a byte stream, in order. -/
def dataBytes : List Sent → List Byte
  | [] => []
  | .char b :: xs => b :: dataBytes xs
  | .instr _ :: xs => dataBytes xs
  | .wake _ :: xs => dataBytes xs

/-- The nine steps of INIT as a byte stream (42_initializer.md rules R137 and R138): what each step sends and the delay after
it. -/
def initSteps (c : Config) : List (Sent × Nat) :=
  let wake (b : Byte) : Sent := match c.wakeFraming with
    | .NIBBLE => .wake (b.extractLsb' 4 4)
    | .BYTE => .instr b
  [(wake c.bFunctionSet8Bit, c.tInit1), (wake c.bFunctionSet8Bit, c.tInit2), (wake c.bFunctionSet8Bit, c.tInit3),
   (wake c.bFunctionSet4Bit, c.tInit4), (.instr c.bFunctionSet2Line, c.tInit5), (.instr c.bDisplayOff, c.tInit6),
   (.instr c.bClear, c.tInit7), (.instr c.bEntryMode, c.tInit8), (.instr c.bDisplayDefault, c.tInit9)]

/-- The events of INIT before its `Done` (R137). -/
def initEvents (c : Config) : List Event :=
  .delay c.tPowerOn :: (initSteps c).flatMap (fun x => sentEvents c x.1 ++ [.delay x.2])

/-! ### Requests -/

/-- The ten rows a request word decodes to; the other six are transfers of the codec and the transmitter. -/
def isRequestRow : Instr → Bool
  | .init _ => true
  | .clear => true
  | .printLine1 => true
  | .printLine2 => true
  | .printAt => true
  | .cursorOn => true
  | .cursorOff => true
  | .write _ => true
  | .cmdUnsupported _ => true
  | .req3 _ => true
  | .lcdClear => false
  | .lcdEntryMode _ _ => false
  | .lcdDisplayControl _ _ _ => false
  | .lcdFunctionSet _ _ _ => false
  | .lcdAddressSet _ => false
  | .frame _ _ => false

/-- The row is `INIT`. -/
def isInitRow : Instr → Bool
  | .init _ => true
  | _ => false

/-- The events a list of primitives leaves, `g` being `diag` at its start (00_scope.md rule R9). -/
def eventsOf (g : Diag) : List Act → List Event
  | [] => []
  | .pinWrite x v :: as => .pin x v :: eventsOf g as
  | .delay t :: as => .delay t :: eventsOf g as
  | .diag d :: as => .diag d :: eventsOf (g.raise d) as
  | .done st :: as => .done st g :: eventsOf g as
  | .setLifecycle _ :: as => eventsOf g as
  | .setLn _ :: as => eventsOf g as
  | .setCnt _ :: as => eventsOf g as
  | .setIdx _ :: as => eventsOf g as
  | .setStep _ :: as => eventsOf g as
  | .ghostReady :: as => eventsOf g as

/-- The event is a pin change. -/
def Event.isPin : Event → Bool
  | .pin _ _ => true
  | _ => false

/-- The event is a `Done`. -/
def Event.isDone : Event → Bool
  | .done _ _ => true
  | _ => false

/-- The outcome of a request by the order of checks of 60_exceptions.md rule R208: its status, and the diagnostic bits of its
`Done`. -/
def outcomeOf (l : Lifecycle) (i : Instr) (r : Request) : Status × Diag :=
  if isInitRow i then
    if l ≠ .UNINIT then (.BAD_STATE, Diag.clear)
    else if r.setupOk = false then (.SETUP_FAILED, Diag.clear)
    else (.OK, Diag.clear)
  else if l ≠ .READY then (.BAD_STATE, Diag.clear)
  else match i with
    | .cmdUnsupported _ => (.UNSUPPORTED, Diag.clear)
    | .req3 _ => (.UNSUPPORTED, Diag.clear)
    | .printLine1 => (.OK, { lineNormalised := false, nullText := !r.textPresent })
    | .printLine2 => (.OK, { lineNormalised := false, nullText := !r.textPresent })
    | .printAt =>
      (.OK, { lineNormalised := r.textPresent && !(lineInRange r.line), nullText := !r.textPresent })
    | _ => (.OK, Diag.clear)

/-- What the host and the LCD can see of the driver: the lines, the response registers, the trace and what the LCD made of it. The
request and working registers are not among it (10_state.md rules R27 and R28). -/
def State.seen (s : State) : Pins × Lifecycle × Bool × Status × Diag × List Event × Option Lcd :=
  (s.pins, s.lifecycle, s.busy, s.status, s.diag, s.trace, s.sink)

/-- The two records agree on the fields the request reads (30_encoding.md rule R82). -/
def readsAgree (i : Instr) (r q : Request) : Prop :=
  match i with
  | .init _ => r.setupOk = q.setupOk
  | .printLine1 => r.text = q.text ∧ r.textPresent = q.textPresent
  | .printLine2 => r.text = q.text ∧ r.textPresent = q.textPresent
  | .printAt => r.text = q.text ∧ r.textPresent = q.textPresent ∧ r.line = q.line ∧ r.offset = q.offset
  | .write _ => r.text = q.text
  | _ => True

/-- The lifecycle admits the request (60_exceptions.md rule R203). -/
def admitted (l : Lifecycle) (i : Instr) : Bool :=
  if isInitRow i then decide (l = .UNINIT) else decide (l = .READY)

/-- The events a state has beyond those of an earlier one. -/
def State.newEvents (before after : State) : List Event := after.trace.drop before.trace.length

/-- The writes of one frame that latches `x` (40_nibble_transmitter.md rules R110 and R111). -/
def frameWrites (x : Latch) : List Event :=
  [.pin .D7 (x.n.getLsbD 3), .pin .D6 (x.n.getLsbD 2), .pin .D5 (x.n.getLsbD 1), .pin .D4 (x.n.getLsbD 0), .pin .RS x.rs,
   .pin .E true, .pin .E false]

/-- The command-mode bytes a request other than INIT can emit, with `offset` the one it was given (30_encoding.md rule R90). -/
def mayEmit (c : Config) (offset : Word) (i : Instr) (b : Byte) : Prop :=
  match i with
  | .clear => b = c.bClear
  | .cursorOn => b = c.bCursorOn
  | .cursorOff => b = c.bCursorOff
  | .printLine1 => b = 0x80#8 ∨ b = 0xC0#8
  | .printLine2 => b = 0xC0#8
  | .printAt =>
    b = 0xC0#8 ∨ b.toNat = (0x80 + offset.toNat) % 256 ∨ b.toNat = (0xC0 + offset.toNat) % 256
  | .write _ => b = c.bClear ∨ b = 0x80#8 ∨ b = 0xC0#8
  | _ => False

/-! ### Inputs -/

/-- The input is looked at whether or not the driver is busy. -/
def Input.isAsync : Input → Bool
  | .reset => true
  | .lcdLost => true
  | .otherAgent => true
  | .request _ _ => false
  | .byte _ => false
  | .frame _ => false

/-- What comes next is not one of those: the driver goes on with what it has. -/
def State.undisturbed (s : State) : Bool :=
  match s.inputs with
  | [] => true
  | x :: _ => !x.isAsync

/-- The input comes through the ports of the driver or from the LCD; the other two are lone calls of micro-operations, which
the host cannot make (R110, R125). -/
def Input.fromHost : Input → Bool
  | .request _ _ => true
  | .reset => true
  | .lcdLost => true
  | .otherAgent => true
  | .byte _ => false
  | .frame _ => false

/-! ### Invariants -/

/-- The primitives left of a running request end it properly: one `Done`, last, with E low, and a lifecycle written only as
10_state.md rule R22 allows. `e` is the level of E and `l` the lifecycle where they begin. -/
def closes (e : Bool) (l : Lifecycle) : List Act → Bool
  | [] => false
  | .done _ :: as => as.isEmpty && !e
  | .pinWrite x v :: as => if x = .E then closes v l as else closes e l as
  | .setLifecycle k :: as => decide (l = .UNINIT) && decide (k ≠ .UNINIT) && closes e k as
  | .delay _ :: as => closes e l as
  | .diag _ :: as => closes e l as
  | .setLn _ :: as => closes e l as
  | .setCnt _ :: as => closes e l as
  | .setIdx _ :: as => closes e l as
  | .setStep _ :: as => closes e l as
  | .ghostReady :: as => closes e l as

/-- The driver is idle with E low and nothing left to do, or it is running a request that will end properly (10_state.md rules
R26, R30, R32(a)). -/
def idleOrRunning (s : State) : Bool :=
  if s.busy then closes s.pins.e s.lifecycle s.pending else !s.pins.e && s.pending.isEmpty

/-- The ghost's memory is in canonical form over the 80 cells and its write address is a cell (20_memory.md rule R61). -/
def sinkOk : Option Lcd → Bool
  | none => true
  | some l => Memory.wf l.ddram && Memory.isCell l.ac.toNat

/-- The primitive, left of a request of kind `kind` with `setup_ok = ok`, writes the lifecycle only where the request is INIT and
what INIT writes: `READY` with `setup_ok = 1`, `FAILED` with `setup_ok = 0` (10_state.md rule R22). -/
def Act.ownLifecycle (kind : BitVec 2) (ok : Bool) : Act → Bool
  | .setLifecycle k => decide (kind = 0#2) && decide (k = if ok then .READY else .FAILED)
  | .pinWrite _ _ => true
  | .delay _ => true
  | .diag _ => true
  | .done _ => true
  | .setLn _ => true
  | .setCnt _ => true
  | .setIdx _ => true
  | .setStep _ => true
  | .ghostReady => true

/-- The invariant of every step. The text of a running request is terminated (44_text_renderer.md rule R162); what an idle driver's
text register holds is not asked about. -/
def State.inv (s : State) : Bool :=
  idleOrRunning s && sinkOk s.sink && (!s.busy || textRead s.text 49 == 0#8)
    && s.pending.all (Act.ownLifecycle s.kind s.setupOk)

/-- A pin was changed since the last reset, `b` saying so of what came before. -/
def pinSince (b : Bool) : List Event → Bool
  | [] => b
  | .pin _ _ :: es => pinSince true es
  | .reset :: es => pinSince false es
  | .delay _ :: es => pinSince b es
  | .diag _ :: es => pinSince b es
  | .done _ _ :: es => pinSince b es

/-- A pin was changed since the last reset. -/
def pinSinceReset (es : List Event) : Bool := pinSince false es

/-- The primitive changes a pin. -/
def Act.isPinWrite : Act → Bool
  | .pinWrite _ _ => true
  | _ => false

/-- Outside `READY` no pin has been changed since reset, except by an INIT still running, one that has `lifecycle <- READY` still
to do (10_state.md rule R32(b)). -/
def quietUntilReady (s : State) : Bool :=
  decide (s.lifecycle = .READY) || s.pending.contains (.setLifecycle .READY)
    || (!pinSinceReset s.trace && !s.pending.any Act.isPinWrite)

/-- What a host that uses the ports alone keeps true: besides `State.inv`, the lines are quiet until INIT (R32(b)). -/
def State.quietInv (s : State) : Bool :=
  s.inv && s.inputs.all Input.fromHost && quietUntilReady s

end Sys2Proof.Machine
end

