-- ==== Sys2Proof/Certificates/Slice0/Obligations.lean ====
section
/-! DEFINITION. The statements about the model. Each says which rule of spec/ it formalises. -/

open Sys2Proof Sys2Proof.Machine

/-! ### Encoding -/

/-- O1. Words written out from 30_encoding.md rules R83, R84, R87 and R89, and what they decode to. -/
def Obligations.SpecWordsDecode : Prop :=
  decode (.req10 0b0000000000#10) = .ok (.init 0#8) ∧ decode (.req10 0b0010101011#10) = .ok (.init 0xAB#8)
  ∧ decode (.req10 0b0100110000#10) = .ok .clear ∧ decode (.req10 0b0100110001#10) = .ok .printLine1
  ∧ decode (.req10 0b0100110010#10) = .ok .printLine2 ∧ decode (.req10 0b0100110011#10) = .ok .printAt
  ∧ decode (.req10 0b0100110100#10) = .ok .cursorOn ∧ decode (.req10 0b0100110101#10) = .ok .cursorOff
  ∧ decode (.req10 0b0100101111#10) = .ok (.cmdUnsupported 0x2F#8)
  ∧ decode (.req10 0b0100110110#10) = .ok (.cmdUnsupported 0x36#8)
  ∧ decode (.req10 0b1001111110#10) = .ok (.write 0x7E#8) ∧ decode (.req10 0b1100110000#10) = .ok (.req3 0x30#8)
  ∧ decode (.lcd8 0b00000001#8) = .ok .lcdClear ∧ decode (.lcd8 0b00000110#8) = .ok (.lcdEntryMode true false)
  ∧ decode (.lcd8 0b00001100#8) = .ok (.lcdDisplayControl true false false)
  ∧ decode (.lcd8 0b00101000#8) = .ok (.lcdFunctionSet false true false)
  ∧ decode (.lcd8 0b11000101#8) = .ok (.lcdAddressSet 0x45#7)
  ∧ decode (.lcd8 0b00000000#8) = .error .noLcdPattern ∧ decode (.lcd8 0b00100001#8) = .error .noLcdPattern
  ∧ decode (.frame5 0b11010#5) = .ok (.frame true 0xA#4)

/-- O2. Decoding the word of a well-formed instruction gives it back, every operand bit with it. -/
def Obligations.DecodeOfEncodeIsTheInstruction : Prop :=
  ∀ i : Instr, i.wellFormed = true → decode (encode i) = .ok i

/-- O3. A word that decodes is the word of the one instruction it decodes to. -/
def Obligations.EncodeOfDecodeIsTheWord : Prop :=
  ∀ (e : Encoded) (i : Instr), decode e = .ok i → i.wellFormed = true ∧ encode i = e

/-- O4. The code field of INIT, WRITE and the reserved kind is ignored (R81, R84); the codes beside the six are one request
(R84). -/
def Obligations.IgnoredCodeSelectsTheSameRequest : Prop :=
  ∀ (c d : BitVec 8) (s : State),
    exec (decodeReq10 (0#2 ++ c)) s = exec (decodeReq10 (0#2 ++ d)) s
    ∧ exec (decodeReq10 (2#2 ++ c)) s = exec (decodeReq10 (2#2 ++ d)) s
    ∧ exec (decodeReq10 (3#2 ++ c)) s = exec (decodeReq10 (3#2 ++ d)) s
    ∧ (commandCodes.contains c = false → commandCodes.contains d = false →
        exec (decodeReq10 (1#2 ++ c)) s = exec (decodeReq10 (1#2 ++ d)) s)

/-! ### The step -/

/-- O5. An idle step accepts the presented request and runs the instruction its word decodes to (R26, R81); a lone byte or frame runs
its row; with nothing presented the driver waits (R230). That inputs come as a list, one step each, is the model's choice (log
entries 4 to 6). -/
def Obligations.StepRunsThePresentedInstruction : Prop :=
  (∀ (s : State) (r : Request) (rest : List Input), s.busy = false → s.inputs = .request r none :: rest →
    step s = exec (decodeReq10 (r.kind ++ r.code)) (accept r { s with inputs := rest }))
  ∧ (∀ (s : State) (b : Byte) (i : Instr) (rest : List Input), s.busy = false → s.inputs = .byte b :: rest →
    decode (.lcd8 b) = .ok i → step s = exec i { s with inputs := rest })
  ∧ (∀ (s : State) (w : BitVec 5) (i : Instr) (rest : List Input), s.busy = false → s.inputs = .frame w :: rest →
    decode (.frame5 w) = .ok i → step s = exec i { s with inputs := rest })
  ∧ (∀ s : State, s.busy = false → s.inputs = [] → step s = .next s)

/-- O6. The instruction of a table word is what the next step runs once the word is placed (log entry 6): on a state with the same
configuration, lines, lifecycle, trace, sink and inputs. -/
def Obligations.PlacedWordRunsNext : Prop :=
  ∀ (s : State) (nbits w : Nat) (i : Instr), decodeTableWord nbits w = some i →
    ∃ a : State, step (s.withFetchWord nbits w) = exec i a ∧ a.cfg = s.cfg ∧ a.pins = s.pins
      ∧ a.lifecycle = s.lifecycle ∧ a.status = s.status ∧ a.setupOk = s.setupOk ∧ a.textPresent = s.textPresent
      ∧ a.line = s.line ∧ a.offset = s.offset ∧ (∀ j, j < 49 → textRead a.text j = textRead s.text j)
      ∧ a.trace = s.trace ∧ a.sink = s.sink ∧ a.inputs = s.inputs

/-- O7. Acceptance copies every request field, forces `text[49]` to 0x00, clears `diag` and sets `busy`, and does nothing else
(R26, R27). -/
def Obligations.AcceptanceCapturesTheRequest : Prop :=
  ∀ (r : Request) (s : State),
    accept r s = { s with
      kind := r.kind, code := r.code, setupOk := r.setupOk, text := (accept r s).text, textPresent := r.textPresent,
      line := r.line, offset := r.offset, diag := { lineNormalised := false, nullText := false }, busy := true }
    ∧ textRead (accept r s).text 49 = 0#8
    ∧ ∀ j, j < 49 → textRead (accept r s).text j = textRead r.text j

/-- O8. While a request runs, the next one waits unchanged and the request registers are constant (R26, R27). -/
def Obligations.BusyDriverLetsRequestsWait : Prop :=
  ∀ s t : State, s.busy = true → s.undisturbed = true → step s = .next t →
    t.inputs = s.inputs ∧ t.kind = s.kind ∧ t.code = s.code ∧ t.setupOk = s.setupOk ∧ t.text = s.text
    ∧ t.textPresent = s.textPresent ∧ t.line = s.line ∧ t.offset = s.offset

/-- O9. No step changes the configuration (00_scope.md rules R5 and R6, 10_state.md rule R31). -/
def Obligations.StepKeepsTheConfiguration : Prop :=
  ∀ s t : State, step s = .next t → t.cfg = s.cfg

/-- O10. From a state that meets the invariant a step always answers a next state, unless another agent drives the lines (93
U8), which is refused by name (log entries 7 and 12). -/
def Obligations.StepStopsOnlyForAnotherAgent : Prop :=
  ∀ s : State, s.inv = true →
    (∃ t, step s = .next t) ∨ ((∃ rest, s.inputs = .otherAgent :: rest) ∧ step s = .refused .otherAgentOnLines)

/-! ### The nibble transmitter and the codec -/

/-- O11. The state after `sendNibble(n, mode)` (R115, which the spec derives from R110), with its eleven events; the lines then keep
their levels until the next write. What the sink makes of it is the ghost's (log entry 10). -/
def Obligations.StateAfterSendNibble : Prop :=
  ∀ (s : State) (n : Nibble) (m : Mode),
    performAll (sendNibble s.cfg n m) s = { s with
      pins := { rs := rsLevel s.cfg m, e := false, d7 := n.getLsbD 3, d6 := n.getLsbD 2, d5 := n.getLsbD 1,
                d4 := n.getLsbD 0 }
      trace := s.trace ++ frameEvents s.cfg (rsLevel s.cfg m) n
      sink := latchSink s.cfg (rsLevel s.cfg m) n s.sink }
    ∧ ∀ (as : List Act), (∀ a ∈ as, a.isPinWrite = false) →
        (performAll as (performAll (sendNibble s.cfg n m) s)).pins = (performAll (sendNibble s.cfg n m) s).pins

/-- O12. The `frame` row answers the state after one frame with its RS level and its nibble (R87, R110). That this output format is an
instruction, a lone `sendNibble` in every lifecycle, is the model's choice (log entry 6), and the sink is the ghost's (log entry 10). -/
def Obligations.FrameRowSendsOneFrame : Prop :=
  ∀ (r : Bool) (n : Nibble) (s : State),
    exec (.frame r n) s = .next { s with
      pins := framePins r n, trace := s.trace ++ frameEvents s.cfg r n, sink := latchSink s.cfg r n s.sink }

/-- O13. The counts of one `sendNibble` (R116, which the spec derives from R110). -/
def Obligations.SendNibbleCounts : Prop :=
  ∀ (s : State) (n : Nibble) (m : Mode),
    let t := performAll (sendNibble s.cfg n m) s
    let es := s.newEvents t
    es.length = 11 ∧ es.countP Event.isPin = 7 ∧ es.countP (fun e => !e.isPin) = 4
    ∧ leastTime es = s.cfg.tRecovery + s.cfg.tSetup + s.cfg.tPulse + s.cfg.tHold
    ∧ (s.cfg = Config.default → leastTime es = 2010000)
    ∧ es.count (.pin .E true) = 1 ∧ es.count (.pin .E false) = 1
    ∧ latchStream s.pins es = [{ rs := rsLevel s.cfg m, n := n }]

/-- O14. The counts of one codec call (R128, which the spec derives from R125 and R126): two frames in one mode, high nibble first. -/
def Obligations.CodecCallCounts : Prop :=
  ∀ (s : State) (b : Byte) (m : Mode),
    let t := performAll (sendByte s.cfg m b) s
    let es := s.newEvents t
    es.length = 22 ∧ es.countP Event.isPin = 14 ∧ es.countP (fun e => !e.isPin) = 8
    ∧ leastTime es = 2 * tNib s.cfg ∧ (s.cfg = Config.default → leastTime es = 4020000)
    ∧ es.count (.pin .E false) = 2
    ∧ latchStream s.pins es =
        [{ rs := rsLevel s.cfg m, n := b.extractLsb' 4 4 }, { rs := rsLevel s.cfg m, n := b.extractLsb' 0 4 }]

/-- O15. Each LCD8 row answers the state after `sendInstruction` of the byte its pattern in R89 stands for (R125), the byte given
here as a number. That these output formats are instructions, a lone `sendInstruction` each, is the model's choice (log entry 6), and the
sink is the ghost's (log entry 10). -/
def Obligations.LcdRowsSendTheirBytes : Prop :=
  ∀ s : State,
    let sent (b : Nat) : Host.Outcome State Fault Refusal := .next { s with
      pins := bytePins s.cfg .COMMAND (BitVec.ofNat 8 b)
      trace := s.trace ++ byteEvents s.cfg .COMMAND (BitVec.ofNat 8 b)
      sink := byteSink s.cfg .COMMAND (BitVec.ofNat 8 b) s.sink }
    exec .lcdClear s = sent 1
    ∧ (∀ i sh : Bool, exec (.lcdEntryMode i sh) s = sent (4 + 2 * i.toNat + sh.toNat))
    ∧ (∀ d c b : Bool, exec (.lcdDisplayControl d c b) s = sent (8 + 4 * d.toNat + 2 * c.toNat + b.toNat))
    ∧ (∀ w n f : Bool, exec (.lcdFunctionSet w n f) s = sent (32 + 16 * w.toNat + 8 * n.toNat + 4 * f.toNat))
    ∧ (∀ a : BitVec 7, exec (.lcdAddressSet a) s = sent (128 + a.toNat))

/-! ### The ghost sink -/

/-- O16. What the LCD does with each LCD8 row while the ghost tracks it and waits for a high nibble (R62): every cell, the write
address and the mode bits as stated, `none` (`known = 0`) where the rule says so. The ghost is the spec's general knowledge (G2, G7, G8).
The model's choices: the rows as instructions (log entry 6), a blank display as the empty list (log entry 8), the ghost's form (log
entry 10). -/
def Obligations.LcdDoesWhatTheByteSays : Prop :=
  ∀ (s : State) (l : Lcd), s.cfg.rsCommand ≠ s.cfg.rsData → s.sink = some l → l.half = none →
    let after (i : Instr) (k : Option Lcd) : Prop := ∃ t, exec i s = .next t ∧ t.sink = k
    after .lcdClear (some { l with ddram := [], ac := 0#7 })
    ∧ (∀ d c b, after (.lcdDisplayControl d c b) (some { l with disp := d, cur := c, blink := b }))
    ∧ (∀ i sh, after (.lcdEntryMode i sh) (if i = true ∧ sh = false then some l else none))
    ∧ (∀ w n f, after (.lcdFunctionSet w n f) (if w = false ∧ n = true ∧ f = false then some l else none))
    ∧ (∀ a : BitVec 7, after (.lcdAddressSet a)
        (if a.toNat ≤ 0x27 ∨ (0x40 ≤ a.toNat ∧ a.toNat ≤ 0x67) then some { l with ac := a } else none))

/-- O17. A data byte is stored in the cell at the LCD's write address and in no other, and the address advances (R63, the spec's
general knowledge G7). -/
def Obligations.DataByteStoresOneCell : Prop :=
  ∀ (s : State) (l : Lcd) (b : Byte), s.cfg.rsCommand ≠ s.cfg.rsData → s.sink = some l → l.half = none →
    sinkOk (some l) = true →
    ∃ l' : Lcd, (performAll (sendCharacter s.cfg b) s).sink = some l'
      ∧ Memory.read l'.ddram l.ac.toNat = b
      ∧ (∀ a : Nat, a ≠ l.ac.toNat → Memory.read l'.ddram a = Memory.read l.ddram a)
      ∧ l'.ac.toNat = (if l.ac.toNat = 0x27 then 0x40 else if l.ac.toNat = 0x67 then 0 else l.ac.toNat + 1)
      ∧ l'.disp = l.disp ∧ l'.cur = l.cur ∧ l'.blink = l.blink ∧ l'.half = none

/-- O18. A write to a cell keeps the memory's canonical form, gives that cell the value and leaves every other cell alone (the ghost's
map of R61 as log entry 8 holds it). -/
def Obligations.WriteKeepsTheMemoryCanonical : Prop :=
  ∀ (m : Memory) (x : Nat) (v : Byte), Memory.wf m = true → Memory.isCell x = true →
    Memory.wf (Memory.write m x v) = true
    ∧ ∀ a : Nat, Memory.read (Memory.write m x v) a = if a = x then v else Memory.read m a

/-- O19. A list of primitives feeds the sink by its latch stream, and by nothing else but for the end of INIT (R61, R12). R61 says that the sink
consumes the byte stream; that it takes latches and pairs them itself is the model's choice (log entry 10). Of a step this does not hold:
a lost LCD and a reset also write the sink (log entries 7 and 13). -/
def Obligations.SinkFollowsTheLatchStream : Prop :=
  ∀ (as : List Act) (s : State), (∀ a ∈ as, a ≠ .ghostReady) →
    (performAll as s).sink = latchesSink s.cfg s.sink (latchStream s.pins (eventsOf s.diag as))

/-- O20. The driver never reads the LCD: whatever the sink, an instruction leaves the same trace and the same registers (R31,
R206). -/
def Obligations.DriverNeverReadsTheLcd : Prop :=
  ∀ (i : Instr) (s : State) (k : Option Lcd),
    ∃ t u : State, exec i s = .next t ∧ exec i { s with sink := k } = .next u ∧ { u with sink := t.sink } = t

/-- O21. A lost ghost stays lost until an INIT: no other instruction recovers it (R62). An LCD that is lost between the events of a request
changes nothing of the driver, which has the same events still to come (R206), and an INIT that was running will not make it known: that
is the model's choice (log entry 7). -/
def Obligations.LostLcdStaysLostUntilInit : Prop :=
  (∀ (i : Instr) (s : State), isInitRow i = false → s.sink = none → ∃ t, exec i s = .next t ∧ t.sink = none)
  ∧ (∀ (s : State) (rest : List Input), s.inputs = .lcdLost :: rest →
    ∃ t, step s = .next t ∧ t = { s with inputs := rest, sink := none, pending := t.pending }
      ∧ .ghostReady ∉ t.pending ∧ ∀ g, eventsOf g t.pending = eventsOf g s.pending)
  ∧ (∀ s t : State, s.undisturbed = true → s.busy = true → .ghostReady ∉ s.pending → s.sink = none → step s = .next t →
    t.sink = none ∧ .ghostReady ∉ t.pending)

/-! ### INIT -/

/-- O22. INIT admitted with `setup_ok = 1` (R137, R141): the nine steps of R137 with their delays, `READY`, `Done(OK)`, and nothing
else but `step`. The sink is
R65's (the spec's general knowledge G9; log entry 9). -/
def Obligations.InitPlaysTheNineSteps : Prop :=
  ∀ (s : State) (code : BitVec 8), s.lifecycle = .UNINIT → s.setupOk = true →
    exec (.init code) s = .next { s with
      lifecycle := .READY, status := .OK, busy := false
      pins := bytePins s.cfg .COMMAND s.cfg.bDisplayDefault
      trace := s.trace ++ (initEvents s.cfg ++ [.done .OK s.diag])
      sink := sinkAfterInit s.cfg
      initStep := 9#4 }

/-- O23. INIT with `setup_ok = 0` (R136): no line event, `FAILED`, `Done(SETUP_FAILED)`; and no instruction leaves `FAILED`. -/
def Obligations.InitFailsWithoutSetup : Prop :=
  (∀ (s : State) (code : BitVec 8), s.lifecycle = .UNINIT → s.setupOk = false →
    exec (.init code) s = .next { s with
      lifecycle := .FAILED, status := .SETUP_FAILED, busy := false
      trace := s.trace ++ [.done .SETUP_FAILED s.diag] })
  ∧ (∀ (s : State) (i : Instr), s.lifecycle = .FAILED → ∃ t, exec i s = .next t ∧ t.lifecycle = .FAILED)
  ∧ (∀ s t : State, s.inv = true → s.lifecycle = .FAILED → step s = .next t → t.lifecycle ≠ .FAILED →
      ∃ rest, s.inputs = .reset :: rest)

/-- O24. The counts of INIT (R140, which the spec derives from R137 and R116), for every configuration and with the defaults. -/
def Obligations.InitCounts : Prop :=
  ∀ (s : State) (code : BitVec 8), s.lifecycle = .UNINIT → s.setupOk = true →
    ∃ t es, exec (.init code) s = .next t ∧ s.newEvents t = es ++ [.done .OK s.diag] ∧
      let c := s.cfg
      let sum := c.tInit1 + c.tInit2 + c.tInit3 + c.tInit4 + c.tInit5 + c.tInit6 + c.tInit7 + c.tInit8 + c.tInit9
      (c.wakeFraming = .NIBBLE → es.length = 164 ∧ es.countP Event.isPin = 98 ∧ es.count (.pin .E false) = 14
        ∧ leastTime es = c.tPowerOn + 14 * tNib c + sum)
      ∧ (c.wakeFraming = .BYTE → es.length = 208 ∧ es.countP Event.isPin = 126 ∧ es.count (.pin .E false) = 18
        ∧ leastTime es = c.tPowerOn + 18 * tNib c + sum)
      ∧ (c = Config.default → leastTime es = 73040000)
      ∧ (c = { Config.default with wakeFraming := .BYTE } → leastTime es = 81080000)

/-- O25. The LCD after a completed INIT (R65, with the premises of R241; D7): in a known state whatever it was before, and not known under
`BYTE`. The spec's general knowledge G9; the figures of R241 are log entry 9's, and that an address which
is no cell reads 0x20 too is log entry 8's. -/
def Obligations.InitLeavesTheLcdKnown : Prop :=
  ∀ (s : State) (code : BitVec 8), s.lifecycle = .UNINIT → s.setupOk = true →
    (s.cfg.wakeFraming = .NIBBLE → s.cfg.initBytesStandard = true → s.cfg.meetsLcd = true →
      ∃ t l, exec (.init code) s = .next t ∧ t.sink = some l ∧ (∀ a, Memory.read l.ddram a = 0x20#8) ∧ l.ac = 0#7
        ∧ l.disp = true ∧ l.cur = true ∧ l.blink = true ∧ l.half = none)
    ∧ (s.cfg.wakeFraming = .BYTE → ∃ t, exec (.init code) s = .next t ∧ t.sink = none)

/-! ### The commands -/

/-- O26. CLEAR, CURSOR_ON and CURSOR_OFF in `READY` (R176, R180, R181): one command-mode byte, `Done(OK)`, and nothing else. The sink is the ghost's
(log entry 10). -/
def Obligations.OneByteCommandsSendTheirByte : Prop :=
  ∀ (s : State) (i : Instr) (b : Byte), s.lifecycle = .READY →
    ((i = .clear ∧ b = s.cfg.bClear) ∨ (i = .cursorOn ∧ b = s.cfg.bCursorOn) ∨ (i = .cursorOff ∧ b = s.cfg.bCursorOff)) →
    exec i s = .next { s with
      status := .OK, busy := false, pins := bytePins s.cfg .COMMAND b
      trace := s.trace ++ (byteEvents s.cfg .COMMAND b ++ [.done .OK s.diag])
      sink := byteSink s.cfg .COMMAND b s.sink }

/-- O27. What CLEAR, CURSOR_ON and CURSOR_OFF do to the display, with their default bytes (R62 with R176, R180, R181): CLEAR blanks every
cell and homes the write address, the cursor commands change the mode bits and no cell. The spec's general knowledge G2, G8;
that an address which is no cell reads 0x20 too is log entry 8's. -/
def Obligations.OneByteCommandsOnTheDisplay : Prop :=
  ∀ (s : State) (l : Lcd), s.lifecycle = .READY → s.cfg.rsCommand ≠ s.cfg.rsData → s.cfg.bClear = 0x01#8 →
    s.cfg.bCursorOn = 0x0F#8 → s.cfg.bCursorOff = 0x0C#8 → s.sink = some l → l.half = none →
    (∃ t l', exec .clear s = .next t ∧ t.sink = some l' ∧ (∀ a, Memory.read l'.ddram a = 0x20#8) ∧ l'.ac = 0#7
      ∧ l'.disp = l.disp ∧ l'.cur = l.cur ∧ l'.blink = l.blink)
    ∧ (∃ t, exec .cursorOn s = .next t ∧ t.sink = some { l with disp := true, cur := true, blink := true })
    ∧ (∃ t, exec .cursorOff s = .next t ∧ t.sink = some { l with disp := true, cur := false, blink := false })

/-- O28. PRINT_LINE1, PRINT_LINE2 and PRINT_AT in `READY` with the text present (R163, R169, R177 to R179): the loop of `render`
leaves exactly the byte stream of the closed form R169, one diagnostic before it when the line was normalised, and
`Done(OK)`. The sink is the ghost's (log entry 10). -/
def Obligations.PrintsRenderInClosedForm : Prop :=
  ∀ (s : State) (i : Instr) (line offset : Word), s.lifecycle = .READY → s.textPresent = true →
    ((i = .printLine1 ∧ line = 1#32 ∧ offset = 0#32) ∨ (i = .printLine2 ∧ line = 2#32 ∧ offset = 0#32)
      ∨ (i = .printAt ∧ line = s.line ∧ offset = s.offset)) →
    let bad := !(line == 1#32 || line == 2#32)
    let xs := renderSent (if line = 2#32 then .two else .one) offset (textOf s.text)
    let g : Diag := { s.diag with lineNormalised := s.diag.lineNormalised || bad }
    ∃ l n j, exec i s = .next { s with
      status := .OK, busy := false, diag := g, pins := streamPins s.cfg s.pins xs
      trace := s.trace ++ ((if bad then [.diag .LINE_NORMALISED] else []) ++ streamEvents s.cfg xs ++ [.done .OK g])
      sink := streamSink s.cfg s.sink xs, ln := l, cnt := n, idx := j }

/-- O29. WRITE in `READY` (R183): the clear byte, then the render at line 1, offset 0 of the text, taken as present; one
`Done(OK)`. The sink is the ghost's (log entry 10). -/
def Obligations.WriteClearsThenPrints : Prop :=
  ∀ (s : State) (code : BitVec 8), s.lifecycle = .READY →
    let xs := .instr s.cfg.bClear :: renderSent .one 0#32 (textOf s.text)
    ∃ l n j, exec (.write code) s = .next { s with
      status := .OK, busy := false, pins := streamPins s.cfg s.pins xs
      trace := s.trace ++ (streamEvents s.cfg xs ++ [.done .OK s.diag])
      sink := streamSink s.cfg s.sink xs, ln := l, cnt := n, idx := j }

/-- O30. An absent text (R161, R204): one `Diag(NULL_TEXT)`, no line event, `Done(OK)`, whatever the line number. -/
def Obligations.AbsentTextPrintsNothing : Prop :=
  ∀ (s : State) (i : Instr), s.lifecycle = .READY → s.textPresent = false →
    (i = .printLine1 ∨ i = .printLine2 ∨ i = .printAt) →
    exec i s = .next { s with
      status := .OK, busy := false, diag := { s.diag with nullText := true }
      trace := s.trace ++ [.diag .NULL_TEXT, .done .OK { s.diag with nullText := true }] }

/-- O31. An unsupported request in `READY` (R182, R201): `Done(UNSUPPORTED)` and nothing else; the words it holds of are those of kind
1 with a code that is not 0x30 to 0x35, and all of kind 3. -/
def Obligations.UnsupportedWordsDoNothing : Prop :=
  (∀ (s : State) (i : Instr), s.lifecycle = .READY → ((∃ c, i = .cmdUnsupported c) ∨ ∃ c, i = .req3 c) →
    exec i s = .next { s with
      status := .UNSUPPORTED, busy := false, trace := s.trace ++ [.done .UNSUPPORTED s.diag] })
  ∧ (∀ (s : State) (r : Request), s.lifecycle = .READY →
    ((r.kind = 1#2 ∧ (r.code < 0x30#8 ∨ 0x35#8 < r.code)) ∨ r.kind = 3#2) →
    exec (decodeReq10 (r.kind ++ r.code)) (accept r s) = .next { accept r s with
      status := .UNSUPPORTED, busy := false
      trace := s.trace ++ [.done .UNSUPPORTED { lineNormalised := false, nullText := false }] })

/-- O32. The wrap policy (R166, with R164, R165 and R170) on what a print with the text present, or a WRITE, puts on the lines: an address-set, then text
bytes in order and unchanged, at most 32 of them, with at most one further instruction, 0xC0, on line 1 only; nothing
but a data byte is last, unless nothing follows the address-set; and `Done`. -/
def Obligations.PrintsKeepTheWrapPolicy : Prop :=
  let policy (s : State) (onLine2 : Prop) (xs : List Sent) : Prop :=
    ∃ n, dataBytes xs = (textOf s.text).take n ∧ n ≤ 32
      ∧ xs.filter Sent.isInstr ∈ [[], [Sent.instr 0xC0#8]]
      ∧ (onLine2 → xs.filter Sent.isInstr = [] ∧ n ≤ 16)
      ∧ (∀ x, xs.getLast? = some x → x.isInstr = false) ∧ (∀ x ∈ xs, ∀ q, x ≠ .wake q)
  (∀ (s : State) (i : Instr), s.lifecycle = .READY → s.textPresent = true →
    (i = .printLine1 ∨ i = .printLine2 ∨ i = .printAt) →
    ∃ t a xs, exec i s = .next t
      ∧ (s.newEvents t).filter (fun e => e != .diag .LINE_NORMALISED)
          = streamEvents s.cfg (.instr a :: xs) ++ [.done .OK t.diag]
      ∧ policy s (i = .printLine2 ∨ (i = .printAt ∧ s.line = 2#32)) xs)
  ∧ (∀ (s : State) (c : BitVec 8), s.lifecycle = .READY →
    ∃ t xs, exec (.write c) s = .next t
      ∧ s.newEvents t = streamEvents s.cfg (.instr s.cfg.bClear :: .instr 0x80#8 :: xs) ++ [.done .OK t.diag]
      ∧ policy s False xs)

/-- O33. Equivalent requests (R92, R177, R178, R183): the two line prints are PRINT_AT at offset 0, and WRITE has the line events of CLEAR
followed by PRINT_LINE1. -/
def Obligations.RequestsThatAreOthers : Prop :=
  ∀ (s : State) (code : BitVec 8), s.lifecycle = .READY →
    (∃ t u, exec .printLine1 s = .next t ∧ exec .printAt { s with line := 1#32, offset := 0#32 } = .next u ∧ t.seen = u.seen)
    ∧ (∃ t u, exec .printLine2 s = .next t ∧ exec .printAt { s with line := 2#32, offset := 0#32 } = .next u ∧ t.seen = u.seen)
    ∧ (s.textPresent = true → ∃ t u v, exec (.write code) s = .next t ∧ exec .clear s = .next u
        ∧ exec .printLine1 u = .next v ∧ t.pins = v.pins ∧ t.sink = v.sink
        ∧ s.newEvents t = (s.newEvents v).filter (fun e => !e.isDone) ++ [.done .OK s.diag])

/-- O34. A normalised line runs as line 1 (R205): the same events with one `Diag(LINE_NORMALISED)` before them and `diag[0] = 1` in
`Done`. -/
def Obligations.NormalisedLineRunsAsLineOne : Prop :=
  ∀ (s : State) (r : Request), s.lifecycle = .READY → r.textPresent = true → r.line ≠ 1#32 → r.line ≠ 2#32 →
    ∃ t u es, exec .printAt (accept r s) = .next t ∧ exec .printAt (accept { r with line := 1#32 } s) = .next u
      ∧ u.trace = s.trace ++ (es ++ [.done .OK { lineNormalised := false, nullText := false }])
      ∧ t.trace = s.trace ++ (.diag .LINE_NORMALISED :: es ++ [.done .OK { lineNormalised := true, nullText := false }])
      ∧ es.all (fun e => !(e == .diag .LINE_NORMALISED)) = true
      ∧ t.pins = u.pins ∧ t.sink = u.sink ∧ t.status = u.status ∧ t.diag = { u.diag with lineNormalised := true }

/-- O35. `setPosition(l, o)` (R153 with R150, R151 and R154): the byte `(base + o) mod 256` of the normalised line, whatever the offset.
The sink is the ghost's (log entry 10). -/
def Obligations.SetPositionSendsTheAddressByte : Prop :=
  ∀ (s : State) (l o : Word),
    let bad := !(l == 1#32 || l == 2#32)
    let b : Byte := BitVec.ofNat 8 (((if l = 2#32 then 0xC0 else 0x80) + o.toNat % 256) % 256)
    performAll (setPosition s.cfg l o) s = { s with
      diag := { s.diag with lineNormalised := s.diag.lineNormalised || bad }
      pins := bytePins s.cfg .COMMAND b
      trace := s.trace ++ ((if bad then [.diag .LINE_NORMALISED] else []) ++ byteEvents s.cfg .COMMAND b)
      sink := byteSink s.cfg .COMMAND b s.sink }

/-! ### What holds of every request -/

/-- O36. The admission table (R203): a request its lifecycle does not admit ends `BAD_STATE` and changes nothing; one it admits does
not. -/
def Obligations.LifecycleAdmitsByTheTable : Prop :=
  ∀ (s : State) (r : Request) (i : Instr), isRequestRow i = true →
    (admitted s.lifecycle i = false →
      exec i (accept r s) = .next { accept r s with
        status := .BAD_STATE, busy := false
        trace := s.trace ++ [.done .BAD_STATE { lineNormalised := false, nullText := false }] })
    ∧ (admitted s.lifecycle i = true → ∃ t, exec i (accept r s) = .next t ∧ t.status ≠ .BAD_STATE)

/-- O37. A refusal changes nothing but the status, `busy` and, for `SETUP_FAILED`, the lifecycle, and its one event is its `Done`
(R209). -/
def Obligations.RefusalsTouchNothing : Prop :=
  ∀ (s t : State) (r : Request) (i : Instr), isRequestRow i = true → exec i (accept r s) = .next t → t.status ≠ .OK →
    t = { accept r s with
      status := t.status, busy := false
      lifecycle := if t.status = .SETUP_FAILED then .FAILED else s.lifecycle
      trace := s.trace ++ [.done t.status { lineNormalised := false, nullText := false }] }

/-- O38. The outcome of an accepted request is the first that applies in the order of R208. -/
def Obligations.OutcomeFollowsThePriority : Prop :=
  ∀ (s : State) (r : Request) (i : Instr), isRequestRow i = true →
    ∃ t, exec i (accept r s) = .next t ∧ (t.status, t.diag) = outcomeOf s.lifecycle i r
      ∧ ¬(t.diag.lineNormalised = true ∧ t.diag.nullText = true)

/-- O39. Every request ends with exactly one `Done`, its last event, which carries the status and the diagnostics, and takes at most 770
events before it (R185). -/
def Obligations.OneDoneEndsEveryRequest : Prop :=
  ∀ (s : State) (r : Request) (i : Instr), isRequestRow i = true →
    ∃ t es, exec i (accept r s) = .next t ∧ t.trace = s.trace ++ (es ++ [.done t.status t.diag])
      ∧ es.all (fun e => !e.isDone && e != .reset) = true ∧ es.length ≤ 770
      ∧ t.busy = false ∧ t.rspDone = true ∧ t.reqReady = true
      ∧ (∀ c, i = .write c → s.lifecycle = .READY → 32 ≤ (textOf (terminate r.text)).length → es.length = 770)

/-- O40. Every request but INIT puts whole bytes on the lines: after its diagnostics its events are those of a byte stream, which its latch stream
gives back pair by pair (R127, R12(b)). -/
def Obligations.RequestsSendWholeBytes : Prop :=
  ∀ (s : State) (i : Instr), isRequestRow i = true → isInitRow i = false → s.cfg.rsCommand ≠ s.cfg.rsData →
    ∃ t ds xs, exec i s = .next t
      ∧ s.newEvents t = ds ++ streamEvents s.cfg xs ++ [.done t.status t.diag]
      ∧ (ds = [] ∨ ds = [.diag .LINE_NORMALISED] ∨ ds = [.diag .NULL_TEXT])
      ∧ byteStream s.cfg s.pins (s.newEvents t) = some xs
      ∧ (latchStream s.pins (s.newEvents t)).length = 2 * xs.length

/-- O41. No two falling edges of E of a request, and no falling edge and the request's start, are less than
`T_RECOVERY + T_SETUP + T_PULSE` apart (R57), INIT among them. -/
def Obligations.LatchesAreSpacedApart : Prop :=
  ∀ (s : State) (i : Instr), isRequestRow i = true →
    ∃ t, exec i s = .next t
      ∧ ∀ g ∈ fallGaps s.pins.e 0 (s.newEvents t), s.cfg.tRecovery + s.cfg.tSetup + s.cfg.tPulse ≤ g

/-- O42. A field a request does not read has no effect (R184, R82); but for PRINT_AT no request normalises a line, and CLEAR, CURSOR_ON and
CURSOR_OFF never report an absent text. -/
def Obligations.IgnoredFieldsHaveNoEffect : Prop :=
  ∀ (s : State) (r q : Request) (i : Instr), isRequestRow i = true →
    (readsAgree i r q →
      ∃ t u, exec i (accept r s) = .next t ∧ exec i (accept q s) = .next u ∧ t.seen = u.seen)
    ∧ ∃ t, exec i (accept r s) = .next t
      ∧ (i ≠ .printAt → Event.diag .LINE_NORMALISED ∉ s.newEvents t ∧ t.diag.lineNormalised = false)
      ∧ ((i = .clear ∨ i = .cursorOn ∨ i = .cursorOff) → Event.diag .NULL_TEXT ∉ s.newEvents t ∧ t.diag.nullText = false)

/-- O43. No result depends on what the request and working registers held before acceptance (R27 to R29), whatever value they had after
reset (log entry 1). -/
def Obligations.UnspecifiedRegistersHaveNoEffect : Prop :=
  ∀ (s u : State) (r : Request) (i : Instr), isRequestRow i = true → s.cfg = u.cfg → s.seen = u.seen →
    ∃ t v, exec i (accept r s) = .next t ∧ exec i (accept r u) = .next v ∧ t.seen = v.seen

/-! ### Invariants -/

/-- O44. Every step keeps the invariant: an idle driver has E low and nothing left to do, a busy one has a list of primitives left that ends
with its one `Done` and E low (R32(a), R26), its text is terminated (R162), and a lifecycle it has still to write is INIT's (R22); the
ghost's memory is canonical and its write address a cell (R61; the canonical form is log entry 8's). -/
def Obligations.StepKeepsTheInvariant : Prop :=
  ∀ s t : State, s.inv = true → step s = .next t → t.inv = true

/-- O45. The machine right after reset meets both invariants (R29). Its empty inputs and trace are log entries 4 and 11; what the request
and working registers hold then (log entry 1) plays no part. -/
def Obligations.ResetMeetsTheInvariants : Prop := State.reset.inv = true ∧ State.reset.quietInv = true

/-- O46. With a host that uses the ports alone, every step keeps the lines quiet until INIT (R32(b)), and the invariant of O44. The model's
choices: the list of inputs (log entry 4), that lone bytes and frames are what such a host does not send (log entry 6), the form of
the ghost's memory (log entry 8). -/
def Obligations.StepKeepsTheLinesQuiet : Prop :=
  ∀ s t : State, s.quietInv = true → step s = .next t → t.quietInv = true

/-- O47. A driver in `FAILED` has changed no line since reset (R32(c)). -/
def Obligations.FailedDriverChangedNoLine : Prop :=
  ∀ s : State, s.quietInv = true → s.lifecycle = .FAILED → pinSinceReset s.trace = false

/-- O48. The only transitions of the lifecycle (R22): out of `UNINIT` by INIT, running or just presented, to `READY` with `setup_ok = 1` and
to `FAILED` with `setup_ok = 0`, and back to `UNINIT` by reset. -/
def Obligations.LifecycleMovesOnlyAsStated : Prop :=
  ∀ s t : State, s.inv = true → step s = .next t →
    t.lifecycle = s.lifecycle
    ∨ (s.lifecycle = .UNINIT ∧ s.busy = true ∧ s.undisturbed = true ∧ s.kind = 0#2
        ∧ t.lifecycle = (if s.setupOk then .READY else .FAILED))
    ∨ (s.lifecycle = .UNINIT ∧ s.busy = false ∧ ∃ r hold rest, s.inputs = .request r hold :: rest ∧ r.kind = 0#2
        ∧ t.lifecycle = (if r.setupOk then .READY else .FAILED))
    ∨ ((∃ rest, s.inputs = .reset :: rest) ∧ t.lifecycle = .UNINIT)

/-! ### Reset and small steps -/

/-- O49. Reset (R230, R29): the six lines low, `UNINIT`, not busy, `OK`, no diagnostic, one `Reset` event, nothing running; an idle driver's
LCD is untouched, and after a reset of a running request nothing is known of it (R233). -/
def Obligations.ResetGivesTheResetValues : Prop :=
  ∀ (s : State) (rest : List Input), s.inputs = .reset :: rest →
    ∃ t, step s = .next t
      ∧ t.pins = { rs := false, e := false, d4 := false, d5 := false, d6 := false, d7 := false }
      ∧ t.lifecycle = .UNINIT ∧ t.busy = false ∧ t.status = .OK ∧ t.diag = { lineNormalised := false, nullText := false }
      ∧ t.pending = [] ∧ t.trace = s.trace ++ [.reset] ∧ t.inputs = rest ∧ t.cfg = s.cfg
      ∧ (s.busy = false → s.pins.e = false → t.sink = s.sink) ∧ (s.busy = true → t.sink = none)

/-- O50. Reset after the first `k` events of a request (R233): those events, then `Reset`, no `Done`, the lines low and the LCD unknown (log
entries 5 and 13). -/
def Obligations.ResetCutsARequestShort : Prop :=
  ∀ (s u : State) (r : Request) (k : Nat) (rest : List Input), s.busy = false →
    s.inputs = .request r (some k) :: .reset :: rest →
    exec (decodeReq10 (r.kind ++ r.code)) (accept r { s with inputs := .reset :: rest }) = .next u →
    k < (s.newEvents u).length →
    ∃ t, Sys2Proof.core.run 2 s = .next t ∧ t.trace = s.trace ++ ((s.newEvents u).take k ++ [.reset])
      ∧ t.pins = Pins.low ∧ t.lifecycle = .UNINIT ∧ t.busy = false ∧ t.pending = [] ∧ t.sink = none ∧ t.inputs = rest

/-- O51. Small steps reach what one step does (R30): a request held after its first `k` events and left alone comes, one event a
step, to the very state in which its atomic execution ends (log entry 5). -/
def Obligations.SmallStepsReachTheAtomicResult : Prop :=
  ∀ (s u : State) (r : Request) (k : Nat) (rest : List Input), s.busy = false → s.pending = [] →
    s.inputs = .request r (some k) :: rest → ({ s with inputs := rest } : State).undisturbed = true →
    exec (decodeReq10 (r.kind ++ r.code)) (accept r { s with inputs := rest }) = .next u →
    k ≤ (s.newEvents u).length →
    Sys2Proof.core.run (1 + ((s.newEvents u).length - k)) s = .next u

/-! ### The display -/

/-- O52. What PRINT_AT shows (R169 with R62 to R64), offset within the caller's contract: each cell it writes holds its character, and every
other cell, and the mode bits, are as before. The spec's general knowledge G7, G10; log entry 8. -/
def Obligations.PrintAtShowsTheText : Prop :=
  ∀ (s : State) (l : Lcd), s.lifecycle = .READY → s.textPresent = true → s.cfg.rsCommand ≠ s.cfg.rsData →
    s.offset.toNat < 16 → s.sink = some l → l.half = none → sinkOk (some l) = true →
    ∃ t l', exec .printAt s = .next t ∧ t.sink = some l'
      ∧ (∀ a : Nat, Memory.read l'.ddram a
          = (printedAt (if s.line = 2#32 then .two else .one) s.offset.toNat (textOf s.text) a).getD (Memory.read l.ddram a))
      ∧ l'.disp = l.disp ∧ l'.cur = l.cur ∧ l'.blink = l.blink ∧ l'.half = none ∧ sinkOk (some l') = true

/-- O53. What WRITE shows, and CLEAR followed by PRINT_LINE1 (95_test_vectors.md S7, R183): the text from line 1, offset 0, and every other cell
a space. The spec's general knowledge G7 to G10; log entry 8. -/
def Obligations.WriteShowsTheTextAlone : Prop :=
  ∀ (s : State) (l : Lcd) (code : BitVec 8), s.lifecycle = .READY → s.cfg.rsCommand ≠ s.cfg.rsData →
    s.cfg.bClear = 0x01#8 → s.sink = some l → l.half = none → sinkOk (some l) = true →
    (∃ t l', exec (.write code) s = .next t ∧ t.sink = some l'
      ∧ ∀ a : Nat, Memory.read l'.ddram a = (printedAt .one 0 (textOf s.text) a).getD 0x20#8)
    ∧ (∀ r : Request, r.textPresent = true →
      ∃ t u l', exec .clear s = .next t ∧ exec .printLine1 (accept r t) = .next u ∧ u.sink = some l'
        ∧ ∀ a : Nat, Memory.read l'.ddram a = (printedAt .one 0 (textOf (terminate r.text)) a).getD 0x20#8)

/-! ### Time and configuration -/

/-- O54. Consecutive delays add and a delay of 0 constrains nothing: such traces are equivalent (R11, R10). That equivalent
traces also have the same `Reset` events in the same places is the model's choice (log entry 16). -/
def Obligations.DelaysAddInTheWaveform : Prop :=
  ∀ (pre post : List Event) (a b : Nat),
    TraceEquiv (pre ++ .delay a :: .delay b :: post) (pre ++ .delay (a + b) :: post)
    ∧ TraceEquiv (pre ++ .delay 0 :: post) (pre ++ post)
    ∧ leastTime (pre ++ .delay a :: .delay b :: post) = leastTime (pre ++ .delay (a + b) :: post)

/-- O55. The least time of the requests (R249, which the spec derives; its rows for the transfers are O13's and O14's, for INIT O24's):
two frames for a one-byte command, two for each byte of every render by the counts of R169, none for a request that ends with a status
other than `OK`, INIT among them. -/
def Obligations.LeastTimeOfTheCommands : Prop :=
  ∀ s : State,
    (s.cfg = Config.default → tNib s.cfg = 2010000)
    ∧ (∀ (i : Instr) (t : State), isRequestRow i = true → exec i s = .next t → t.status ≠ .OK → leastTime (s.newEvents t) = 0)
    ∧ (s.lifecycle = .READY →
      (∀ i, (i = .clear ∨ i = .cursorOn ∨ i = .cursorOff) →
        ∃ t, exec i s = .next t ∧ leastTime (s.newEvents t) = 2 * tNib s.cfg)
      ∧ (∀ (i : Instr) (line offset : Word), s.textPresent = true →
        ((i = .printLine1 ∧ line = 1#32 ∧ offset = 0#32) ∨ (i = .printLine2 ∧ line = 2#32 ∧ offset = 0#32)
          ∨ (i = .printAt ∧ line = s.line ∧ offset = s.offset)) →
        ∃ t, exec i s = .next t ∧ leastTime (s.newEvents t)
          = 2 * renderCount (if line = 2#32 then .two else .one) offset.toNat (textOf s.text).length * tNib s.cfg)
      ∧ (∀ c, ∃ t, exec (.write c) s = .next t ∧ leastTime (s.newEvents t)
          = 2 * (1 + renderCount .one 0 (textOf s.text).length) * tNib s.cfg)
      ∧ ((textOf s.text).length = 16 → 2 * renderCount .one 0 (textOf s.text).length = 34)
      ∧ (32 ≤ (textOf s.text).length → 2 * renderCount .one 0 (textOf s.text).length = 68
        ∧ 2 * (1 + renderCount .one 0 (textOf s.text).length) = 70))

/-- O56. The defaults of R6, with the model's values for the two it leaves OPEN, the clock period and the pin map (log entry 2), meet its
constraints and the LCD's needs of R241 (the needs are log entry 9's), and with them INIT's bytes are R89's. -/
def Obligations.DefaultsAreAdmissible : Prop :=
  Config.default.ok = true ∧ Config.default.meetsLcd = true ∧ Config.default.initBytesStandard = true

/-! ### More of every request -/

/-- O57. `setLineStart(l)` (R152 with R150 and R151): the base byte of the normalised line, which is what `setPosition(l, 0)`
sends. The sink is the ghost's (log entry 10). -/
def Obligations.SetLineStartSendsTheBase : Prop :=
  ∀ (s : State) (l : Word),
    let bad := !(l == 1#32 || l == 2#32)
    let b : Byte := if l = 2#32 then 0xC0#8 else 0x80#8
    performAll (setLineStart s.cfg l) s = { s with
      diag := { s.diag with lineNormalised := s.diag.lineNormalised || bad }
      pins := bytePins s.cfg .COMMAND b
      trace := s.trace ++ ((if bad then [.diag .LINE_NORMALISED] else []) ++ byteEvents s.cfg .COMMAND b)
      sink := byteSink s.cfg .COMMAND b s.sink }
    ∧ performAll (setLineStart s.cfg l) s = performAll (setPosition s.cfg l 0#32) s

/-- O58. Around each falling edge of E of a request each data line and RS is written once, before E rises, with what is latched
(R32(d), R111): the writes of a request are those of its latches, frame by frame, INIT among them. -/
def Obligations.LinesAreWrittenOncePerLatch : Prop :=
  ∀ (s : State) (i : Instr), isRequestRow i = true →
    ∃ t, exec i s = .next t
      ∧ (s.newEvents t).filter Event.isPin = (latchStream s.pins (s.newEvents t)).flatMap frameWrites

/-- O59. The bytes a request other than INIT can emit are a closed set (R90): its instructions are those of its row, its data bytes
are not 0x00. -/
def Obligations.EmittedBytesAreAClosedSet : Prop :=
  ∀ (s : State) (i : Instr), isRequestRow i = true → isInitRow i = false → s.cfg.rsCommand ≠ s.cfg.rsData →
    ∃ t xs, exec i s = .next t ∧ byteStream s.cfg s.pins (s.newEvents t) = some xs
      ∧ (∀ b, Sent.instr b ∈ xs → mayEmit s.cfg s.offset i b)
      ∧ (∀ b, Sent.char b ∈ xs → b ≠ 0#8)

/-- O60. What no row but INIT changes: the lifecycle and INIT's step (R193, R28), and what no row at all changes: the request
registers, the configuration and what is still to come (R27, R31). -/
def Obligations.OnlyInitMovesTheLifecycle : Prop :=
  ∀ (i : Instr) (s : State), ∃ t, exec i s = .next t
    ∧ (isInitRow i = false → t.lifecycle = s.lifecycle ∧ t.initStep = s.initStep)
    ∧ t.kind = s.kind ∧ t.code = s.code ∧ t.setupOk = s.setupOk ∧ t.text = s.text ∧ t.textPresent = s.textPresent
    ∧ t.line = s.line ∧ t.offset = s.offset ∧ t.cfg = s.cfg ∧ t.inputs = s.inputs ∧ t.pending = s.pending
end

