-- ==== Sys2Proof/Laws/State.lean ====
section
/-! SUPPORT. One lemma per line per line write, and per field per primitive: what a primitive leaves alone. -/

namespace Sys2Proof.Laws

open Sys2Proof.Machine

@[simp] theorem pins_set_RS (p : Pins) (v : Bool) : p.set .RS v = { p with rs := v } := rfl
@[simp] theorem pins_set_E (p : Pins) (v : Bool) : p.set .E v = { p with e := v } := rfl
@[simp] theorem pins_set_D4 (p : Pins) (v : Bool) : p.set .D4 v = { p with d4 := v } := rfl
@[simp] theorem pins_set_D5 (p : Pins) (v : Bool) : p.set .D5 v = { p with d5 := v } := rfl
@[simp] theorem pins_set_D6 (p : Pins) (v : Bool) : p.set .D6 v = { p with d6 := v } := rfl
@[simp] theorem pins_set_D7 (p : Pins) (v : Bool) : p.set .D7 v = { p with d7 := v } := rfl

theorem pins_get_set (p : Pins) (x y : Pin) (v : Bool) :
    (p.set x v).get y = if x = y then v else p.get y := by
  cases x <;> cases y <;> rfl

theorem nibble_of_bits : ∀ n : Nibble,
    (BitVec.ofBool (n.getLsbD 3) ++ BitVec.ofBool (n.getLsbD 2) ++ BitVec.ofBool (n.getLsbD 1)
      ++ BitVec.ofBool (n.getLsbD 0) : Nibble) = n := by decide

/-- The nibble on the lines of a frame is the nibble sent. -/
@[simp] theorem framePins_nibble (rs : Bool) (n : Nibble) : (framePins rs n).nibble = n := nibble_of_bits n

@[simp] theorem framePins_rs (rs : Bool) (n : Nibble) : (framePins rs n).rs = rs := rfl
@[simp] theorem framePins_e (rs : Bool) (n : Nibble) : (framePins rs n).e = false := rfl

/-! ### Fields a primitive leaves alone -/

@[simp] theorem perform_cfg (a : Act) (s : State) : (perform a s).cfg = s.cfg := by cases a <;> rfl
@[simp] theorem perform_kind (a : Act) (s : State) : (perform a s).kind = s.kind := by cases a <;> rfl
@[simp] theorem perform_code (a : Act) (s : State) : (perform a s).code = s.code := by cases a <;> rfl
@[simp] theorem perform_setupOk (a : Act) (s : State) : (perform a s).setupOk = s.setupOk := by cases a <;> rfl
@[simp] theorem perform_text (a : Act) (s : State) : (perform a s).text = s.text := by cases a <;> rfl
@[simp] theorem perform_textPresent (a : Act) (s : State) : (perform a s).textPresent = s.textPresent := by
  cases a <;> rfl
@[simp] theorem perform_line (a : Act) (s : State) : (perform a s).line = s.line := by cases a <;> rfl
@[simp] theorem perform_offset (a : Act) (s : State) : (perform a s).offset = s.offset := by cases a <;> rfl
@[simp] theorem perform_pending (a : Act) (s : State) : (perform a s).pending = s.pending := by cases a <;> rfl
@[simp] theorem perform_inputs (a : Act) (s : State) : (perform a s).inputs = s.inputs := by cases a <;> rfl

/-! ### Acceptance -/

@[simp] theorem accept_cfg (r : Request) (s : State) : (accept r s).cfg = s.cfg := rfl
@[simp] theorem accept_pins (r : Request) (s : State) : (accept r s).pins = s.pins := rfl
@[simp] theorem accept_lifecycle (r : Request) (s : State) : (accept r s).lifecycle = s.lifecycle := rfl
@[simp] theorem accept_busy (r : Request) (s : State) : (accept r s).busy = true := rfl
@[simp] theorem accept_status (r : Request) (s : State) : (accept r s).status = s.status := rfl
@[simp] theorem accept_diag (r : Request) (s : State) : (accept r s).diag = Diag.clear := rfl
@[simp] theorem accept_setupOk (r : Request) (s : State) : (accept r s).setupOk = r.setupOk := rfl
@[simp] theorem accept_text (r : Request) (s : State) : (accept r s).text = terminate r.text := rfl
@[simp] theorem accept_textPresent (r : Request) (s : State) : (accept r s).textPresent = r.textPresent := rfl
@[simp] theorem accept_line (r : Request) (s : State) : (accept r s).line = r.line := rfl
@[simp] theorem accept_offset (r : Request) (s : State) : (accept r s).offset = r.offset := rfl
@[simp] theorem accept_pending (r : Request) (s : State) : (accept r s).pending = s.pending := rfl
@[simp] theorem accept_inputs (r : Request) (s : State) : (accept r s).inputs = s.inputs := rfl
@[simp] theorem accept_trace (r : Request) (s : State) : (accept r s).trace = s.trace := rfl
@[simp] theorem accept_sink (r : Request) (s : State) : (accept r s).sink = s.sink := rfl
@[simp] theorem accept_kind (r : Request) (s : State) : (accept r s).kind = r.kind := rfl

/-! ### A lost LCD -/

@[simp] theorem loseLcd_cfg (s : State) : (loseLcd s).cfg = s.cfg := rfl
@[simp] theorem loseLcd_pins (s : State) : (loseLcd s).pins = s.pins := rfl
@[simp] theorem loseLcd_lifecycle (s : State) : (loseLcd s).lifecycle = s.lifecycle := rfl
@[simp] theorem loseLcd_busy (s : State) : (loseLcd s).busy = s.busy := rfl
@[simp] theorem loseLcd_status (s : State) : (loseLcd s).status = s.status := rfl
@[simp] theorem loseLcd_diag (s : State) : (loseLcd s).diag = s.diag := rfl
@[simp] theorem loseLcd_kind (s : State) : (loseLcd s).kind = s.kind := rfl
@[simp] theorem loseLcd_code (s : State) : (loseLcd s).code = s.code := rfl
@[simp] theorem loseLcd_setupOk (s : State) : (loseLcd s).setupOk = s.setupOk := rfl
@[simp] theorem loseLcd_text (s : State) : (loseLcd s).text = s.text := rfl
@[simp] theorem loseLcd_textPresent (s : State) : (loseLcd s).textPresent = s.textPresent := rfl
@[simp] theorem loseLcd_line (s : State) : (loseLcd s).line = s.line := rfl
@[simp] theorem loseLcd_offset (s : State) : (loseLcd s).offset = s.offset := rfl
@[simp] theorem loseLcd_ln (s : State) : (loseLcd s).ln = s.ln := rfl
@[simp] theorem loseLcd_cnt (s : State) : (loseLcd s).cnt = s.cnt := rfl
@[simp] theorem loseLcd_idx (s : State) : (loseLcd s).idx = s.idx := rfl
@[simp] theorem loseLcd_initStep (s : State) : (loseLcd s).initStep = s.initStep := rfl
@[simp] theorem loseLcd_inputs (s : State) : (loseLcd s).inputs = s.inputs := rfl
@[simp] theorem loseLcd_trace (s : State) : (loseLcd s).trace = s.trace := rfl
@[simp] theorem loseLcd_sink (s : State) : (loseLcd s).sink = none := rfl
@[simp] theorem loseLcd_pending (s : State) : (loseLcd s).pending = s.pending.filter (fun a => a != .ghostReady) := rfl

/-! ### Lists of primitives -/

@[simp] theorem performAll_nil (s : State) : performAll [] s = s := rfl
@[simp] theorem performAll_cons (a : Act) (as : List Act) (s : State) :
    performAll (a :: as) s = performAll as (perform a s) := rfl

theorem performAll_append (as bs : List Act) (s : State) :
    performAll (as ++ bs) s = performAll bs (performAll as s) := by
  induction as generalizing s with
  | nil => rfl
  | cons a as ih => exact ih _

/-- What no list of primitives changes. -/
structure SameFixed (s t : State) : Prop where
  cfg : t.cfg = s.cfg
  kind : t.kind = s.kind
  code : t.code = s.code
  setupOk : t.setupOk = s.setupOk
  text : t.text = s.text
  textPresent : t.textPresent = s.textPresent
  line : t.line = s.line
  offset : t.offset = s.offset
  pending : t.pending = s.pending
  inputs : t.inputs = s.inputs

theorem performAll_sameFixed (as : List Act) (s : State) : SameFixed s (performAll as s) := by
  induction as generalizing s with
  | nil => exact ⟨rfl, rfl, rfl, rfl, rfl, rfl, rfl, rfl, rfl, rfl⟩
  | cons a as ih =>
    obtain ⟨h1, h2, h3, h4, h5, h6, h7, h8, h9, h10⟩ := ih (perform a s)
    exact ⟨by simp_all, by simp_all, by simp_all, by simp_all, by simp_all, by simp_all, by simp_all, by simp_all,
      by simp_all, by simp_all⟩

@[simp] theorem performAll_cfg (as : List Act) (s : State) : (performAll as s).cfg = s.cfg :=
  (performAll_sameFixed as s).cfg

@[simp] theorem performAll_kind (as : List Act) (s : State) : (performAll as s).kind = s.kind :=
  (performAll_sameFixed as s).kind

@[simp] theorem performAll_code (as : List Act) (s : State) : (performAll as s).code = s.code :=
  (performAll_sameFixed as s).code

@[simp] theorem performAll_setupOk (as : List Act) (s : State) : (performAll as s).setupOk = s.setupOk :=
  (performAll_sameFixed as s).setupOk

@[simp] theorem performAll_textPresent (as : List Act) (s : State) : (performAll as s).textPresent = s.textPresent :=
  (performAll_sameFixed as s).textPresent

@[simp] theorem performAll_line (as : List Act) (s : State) : (performAll as s).line = s.line :=
  (performAll_sameFixed as s).line

@[simp] theorem performAll_offset (as : List Act) (s : State) : (performAll as s).offset = s.offset :=
  (performAll_sameFixed as s).offset

@[simp] theorem performAll_text (as : List Act) (s : State) : (performAll as s).text = s.text :=
  (performAll_sameFixed as s).text

@[simp] theorem performAll_pending (as : List Act) (s : State) : (performAll as s).pending = s.pending :=
  (performAll_sameFixed as s).pending

@[simp] theorem performAll_inputs (as : List Act) (s : State) : (performAll as s).inputs = s.inputs :=
  (performAll_sameFixed as s).inputs

/-- `exec` performs the list of primitives of its instruction. -/
theorem exec_eq_performAll (i : Instr) (s : State) : exec i s = .next (performAll (actsOf i s) s) := by
  cases i <;> rfl

/-! ### The trace a list of primitives leaves -/

/-- `diag` after a list of primitives. -/
def diagAfter (g : Diag) : List Act → Diag
  | [] => g
  | .diag d :: as => diagAfter (g.raise d) as
  | .pinWrite _ _ :: as => diagAfter g as
  | .delay _ :: as => diagAfter g as
  | .done _ :: as => diagAfter g as
  | .setLifecycle _ :: as => diagAfter g as
  | .setLn _ :: as => diagAfter g as
  | .setCnt _ :: as => diagAfter g as
  | .setIdx _ :: as => diagAfter g as
  | .setStep _ :: as => diagAfter g as
  | .ghostReady :: as => diagAfter g as

theorem performAll_diag (as : List Act) (s : State) : (performAll as s).diag = diagAfter s.diag as := by
  induction as generalizing s with
  | nil => rfl
  | cons a as ih => cases a <;> exact ih _

theorem performAll_trace (as : List Act) (s : State) :
    (performAll as s).trace = s.trace ++ eventsOf s.diag as := by
  induction as generalizing s with
  | nil => simp [eventsOf]
  | cons a as ih => cases a <;> simp [ih, perform, pinWrite, eventsOf]

theorem eventsOf_append (g : Diag) (as bs : List Act) :
    eventsOf g (as ++ bs) = eventsOf g as ++ eventsOf (diagAfter g as) bs := by
  induction as generalizing g with
  | nil => rfl
  | cons a as ih => cases a <;> simp [ih, eventsOf, diagAfter]

theorem diagAfter_append (g : Diag) (as bs : List Act) :
    diagAfter g (as ++ bs) = diagAfter (diagAfter g as) bs := by
  induction as generalizing g with
  | nil => rfl
  | cons a as ih => cases a <;> simp [ih, diagAfter]

theorem performAll_pins (as : List Act) (s : State) :
    (performAll as s).pins = pinsAfter s.pins (eventsOf s.diag as) := by
  induction as generalizing s with
  | nil => rfl
  | cons a as ih => cases a <;> simp [ih, perform, pinWrite, eventsOf, pinsAfter]

theorem pinsAfter_append (p : Pins) (xs ys : List Event) :
    pinsAfter p (xs ++ ys) = pinsAfter (pinsAfter p xs) ys := by
  induction xs generalizing p with
  | nil => rfl
  | cons x xs ih => cases x <;> exact ih _

end Sys2Proof.Laws
end

