-- ==== Sys2Proof/Laws/Transfer.lean ====
section
/-! SUPPORT. The transfers: what a frame, a byte and a byte stream do to the state, said once each. -/

namespace Sys2Proof.Laws

open Sys2Proof.Machine

/-- One frame (R110, R115): the six lines, the eleven events, one latch, nothing else. -/
theorem performAll_sendFrame (rs : Bool) (n : Nibble) (s : State) :
    performAll (sendFrame s.cfg rs n) s =
      { s with pins := framePins rs n, trace := s.trace ++ frameEvents s.cfg rs n,
               sink := latchSink s.cfg rs n s.sink } := by
  have h := framePins_nibble rs n
  simp [sendFrame, perform, pinWrite, frameEvents, framePins, latchSink, Pins.nibble] at h ⊢
  rw [h]

/-- One byte (R125, R126): two frames in one mode. -/
theorem performAll_sendByte (m : Mode) (b : Byte) (s : State) :
    performAll (sendByte s.cfg m b) s =
      { s with pins := bytePins s.cfg m b, trace := s.trace ++ byteEvents s.cfg m b,
               sink := byteSink s.cfg m b s.sink } := by
  have h2 := performAll_sendFrame (rsLevel s.cfg m) (loNibble b)
    { s with pins := framePins (rsLevel s.cfg m) (hiNibble b),
             trace := s.trace ++ frameEvents s.cfg (rsLevel s.cfg m) (hiNibble b),
             sink := latchSink s.cfg (rsLevel s.cfg m) (hiNibble b) s.sink }
  rw [sendByte, performAll_append, sendNibble, sendNibble, performAll_sendFrame, h2]
  simp [bytePins, byteEvents, byteSink, hiNibble, loNibble]

/-- What a byte stream does to the state. -/
def sendState (xs : List Sent) (s : State) : State :=
  { s with pins := streamPins s.cfg s.pins xs, trace := s.trace ++ streamEvents s.cfg xs,
           sink := streamSink s.cfg s.sink xs }

theorem streamPins_append (c : Config) (p : Pins) (xs ys : List Sent) :
    streamPins c p (xs ++ ys) = streamPins c (streamPins c p xs) ys := by
  rcases ys.eq_nil_or_concat with rfl | ⟨ys, y, rfl⟩
  · simp [streamPins]
  · simp [streamPins, ← List.append_assoc]

theorem streamEvents_append (c : Config) (xs ys : List Sent) :
    streamEvents c (xs ++ ys) = streamEvents c xs ++ streamEvents c ys := by
  simp [streamEvents]

theorem streamSink_append (c : Config) (k : Option Lcd) (xs ys : List Sent) :
    streamSink c k (xs ++ ys) = streamSink c (streamSink c k xs) ys := by
  simp [streamSink]

/-- The primitives `as` put the byte stream `xs` on the lines under configuration `c`, and write at most the working
registers of `render` besides. -/
def Sends (c : Config) (as : List Act) (xs : List Sent) : Prop :=
  ∀ s : State, s.cfg = c →
    ∃ l n i, performAll as s = { sendState xs s with ln := l, cnt := n, idx := i }

theorem sends_nil (c : Config) : Sends c [] [] := by
  intro s _
  exact ⟨s.ln, s.cnt, s.idx, by simp [sendState, streamPins, streamEvents, streamSink]⟩

theorem Sends.append {c : Config} {as bs : List Act} {xs ys : List Sent} (h1 : Sends c as xs) (h2 : Sends c bs ys) :
    Sends c (as ++ bs) (xs ++ ys) := by
  intro s hs
  obtain ⟨l, n, i, e⟩ := h1 s hs
  obtain ⟨l', n', i', e'⟩ := h2 { sendState xs s with ln := l, cnt := n, idx := i } hs
  refine ⟨l', n', i', ?_⟩
  rw [performAll_append, e, e']
  simp [sendState, streamPins_append, streamEvents_append, streamSink_append]

theorem sends_instr (c : Config) (b : Byte) : Sends c (sendInstruction c b) [.instr b] := by
  intro s hs
  subst hs
  refine ⟨s.ln, s.cnt, s.idx, ?_⟩
  rw [sendInstruction, performAll_sendByte]
  simp [sendState, streamPins, streamEvents, streamSink, sentEvents, sentPins, sentSink]

theorem sends_char (c : Config) (b : Byte) : Sends c (sendCharacter c b) [.char b] := by
  intro s hs
  subst hs
  refine ⟨s.ln, s.cnt, s.idx, ?_⟩
  rw [sendCharacter, performAll_sendByte]
  simp [sendState, streamPins, streamEvents, streamSink, sentEvents, sentPins, sentSink]

theorem sends_work (c : Config) (as : List Act)
    (h : ∀ a ∈ as, (∃ l, a = .setLn l) ∨ (∃ n, a = .setCnt n) ∨ ∃ i, a = .setIdx i) : Sends c as [] := by
  induction as with
  | nil => exact sends_nil c
  | cons a as ih =>
    have ih := ih (fun b hb => h b (List.mem_cons_of_mem _ hb))
    intro s hs
    obtain ⟨l, n, i, e⟩ := ih (perform a s) (by simpa using hs)
    refine ⟨l, n, i, ?_⟩
    rw [performAll_cons, e]
    rcases h a (List.mem_cons_self ..) with ⟨_, rfl⟩ | ⟨_, rfl⟩ | ⟨_, rfl⟩ <;>
      simp [perform, sendState, streamPins, streamEvents, streamSink]

end Sys2Proof.Laws
end

