-- ==== Sys2Proof/Laws/Init.lean ====
section
/-! SUPPORT. INIT: what the nine steps do to the state. -/

namespace Sys2Proof.Laws

open Sys2Proof.Machine

theorem sends_wake (c : Config) (b : Byte) :
    Sends c (wake c b) [match c.wakeFraming with | .NIBBLE => .wake (b.extractLsb' 4 4) | .BYTE => .instr b] := by
  unfold wake
  cases h : c.wakeFraming with
  | NIBBLE =>
    intro s hs
    subst hs
    refine ⟨s.ln, s.cnt, s.idx, ?_⟩
    rw [sendNibble, performAll_sendFrame]
    simp [sendState, streamPins, streamEvents, streamSink, sentEvents, sentPins, sentSink, hiNibble, rsLevel]
  | BYTE => exact sends_instr c b

/-- One pass of INIT's loop: what the step sends, then its delay. -/
theorem performAll_initPass {c : Config} {as : List Act} {x : Sent} (k : BitVec 4) (t : Nat) (h : Sends c as [x])
    (s : State) (hs : s.cfg = c) :
    ∃ l n i, performAll (initPass k as t) s =
      { s with ln := l, cnt := n, idx := i, initStep := k, pins := sentPins c x, sink := sentSink c s.sink x,
               trace := s.trace ++ (sentEvents c x ++ [.delay t]) } := by
  obtain ⟨l, n, i, e⟩ := h { s with initStep := k } hs
  refine ⟨l, n, i, ?_⟩
  subst hs
  have e1 : performAll (initPass k as t) s
      = performAll [Act.delay t] (performAll as { s with initStep := k }) := by
    rw [initPass, List.cons_append, performAll_cons, performAll_append]; rfl
  rw [e1, e]
  simp [sendState, streamPins, streamEvents, streamSink, perform]

/-- The passes of INIT's loop, one after another. -/
theorem performAll_initPasses {c : Config} :
    ∀ (ps : List (BitVec 4 × List Act × Nat)) (xs : List Sent),
      List.Forall₂ (fun p x => Sends c p.2.1 [x]) ps xs →
      ∀ s : State, s.cfg = c → ∃ l n i, performAll (ps.flatMap (fun p => initPass p.1 p.2.1 p.2.2)) s =
        { s with ln := l, cnt := n, idx := i, initStep := (ps.getLast?.map (·.1)).getD s.initStep,
                 pins := streamPins c s.pins xs, sink := streamSink c s.sink xs,
                 trace := s.trace ++ (ps.zip xs).flatMap (fun q => sentEvents c q.2 ++ [.delay q.1.2.2]) } := by
  intro ps xs h
  induction h with
  | nil =>
    intro s _
    exact ⟨s.ln, s.cnt, s.idx, by simp [streamPins, streamSink]⟩
  | @cons p x ps xs hp _ ih =>
    intro s hs
    obtain ⟨l, n, i, e⟩ := performAll_initPass p.1 p.2.2 hp s hs
    obtain ⟨l', n', i', e'⟩ := ih _ (show ({ s with ln := l, cnt := n, idx := i, initStep := p.1, pins := sentPins c x, sink := sentSink c s.sink x, trace := s.trace ++ (sentEvents c x ++ [.delay p.2.2]) } : State).cfg = c from hs)
    refine ⟨l', n', i', ?_⟩
    have hp1 : streamPins c s.pins (x :: xs) = streamPins c (sentPins c x) xs := by
      rw [← List.singleton_append, streamPins_append]; simp [streamPins]
    rw [List.flatMap_cons, performAll_append, e, e', hp1]
    rcases ps.eq_nil_or_concat with rfl | ⟨ps, q, rfl⟩
    · simp [streamSink]
    · have hlast : (p :: (ps ++ [q])).getLast? = some q := List.getLast?_concat (l := p :: ps)
      simp [streamSink, hlast]

/-- The nine passes of INIT (R137), with the primitives of each. -/
def initPasses (c : Config) : List (BitVec 4 × List Act × Nat) :=
  [(1#4, wake c c.bFunctionSet8Bit, c.tInit1), (2#4, wake c c.bFunctionSet8Bit, c.tInit2),
   (3#4, wake c c.bFunctionSet8Bit, c.tInit3), (4#4, wake c c.bFunctionSet4Bit, c.tInit4),
   (5#4, sendInstruction c c.bFunctionSet2Line, c.tInit5), (6#4, sendInstruction c c.bDisplayOff, c.tInit6),
   (7#4, sendInstruction c c.bClear, c.tInit7), (8#4, sendInstruction c c.bEntryMode, c.tInit8),
   (9#4, sendInstruction c c.bDisplayDefault, c.tInit9)]

theorem initSequence_eq (c : Config) :
    initSequence c = .delay c.tPowerOn :: ((initPasses c).flatMap (fun p => initPass p.1 p.2.1 p.2.2)
      ++ [.ghostReady, .setLifecycle .READY, .done .OK]) := by
  simp [initSequence, initPasses]

theorem initEvents_eq (c : Config) :
    initEvents c = .delay c.tPowerOn ::
      ((initPasses c).zip ((initSteps c).map (·.1))).flatMap (fun q => sentEvents c q.2 ++ [.delay q.1.2.2]) := by
  simp [initEvents, initSteps, initPasses]

theorem initPasses_sends (c : Config) :
    List.Forall₂ (fun p x => Sends c p.2.1 [x]) (initPasses c) ((initSteps c).map (·.1)) := by
  simp only [initPasses, initSteps, List.map_cons, List.map_nil]
  exact .cons (sends_wake c _) (.cons (sends_wake c _) (.cons (sends_wake c _) (.cons (sends_wake c _)
    (.cons (sends_instr c _) (.cons (sends_instr c _) (.cons (sends_instr c _) (.cons (sends_instr c _)
      (.cons (sends_instr c _) .nil))))))))

/-- The primitive writes none of `render`'s registers (10_state.md rule R28). -/
def leavesRender : Act → Bool
  | .setLn _ => false
  | .setCnt _ => false
  | .setIdx _ => false
  | _ => true

/-- A list that writes none of `render`'s registers leaves them. -/
theorem performAll_renderRegisters (as : List Act) (h : as.all leavesRender = true) (s : State) :
    (performAll as s).ln = s.ln ∧ (performAll as s).cnt = s.cnt ∧ (performAll as s).idx = s.idx := by
  induction as generalizing s with
  | nil => exact ⟨rfl, rfl, rfl⟩
  | cons a as ih =>
    rw [List.all_cons, Bool.and_eq_true] at h
    have e := ih h.2 (perform a s)
    rw [performAll_cons]
    cases a <;> first | exact e | exact absurd h.1 Bool.false_ne_true

/-- INIT writes none of `render`'s registers (R28). -/
theorem initSequence_renderRegisters (s : State) :
    (performAll (initSequence s.cfg) s).ln = s.ln ∧ (performAll (initSequence s.cfg) s).cnt = s.cnt
      ∧ (performAll (initSequence s.cfg) s).idx = s.idx := by
  apply performAll_renderRegisters
  simp only [initSequence, initPass, wake, List.all_append, List.all_cons]
  cases s.cfg.wakeFraming <;> rfl

/-- The whole sequence of INIT (R137, R141), `INIT` having been admitted with `setup_ok = 1`. -/
theorem performAll_initSequence (s : State) :
    performAll (initSequence s.cfg) s =
      { s with initStep := 9#4, pins := bytePins s.cfg .COMMAND s.cfg.bDisplayDefault,
               sink := sinkAfterInit s.cfg, lifecycle := .READY, status := .OK, busy := false,
               trace := s.trace ++ (initEvents s.cfg ++ [.done .OK s.diag]) } := by
  have hr := initSequence_renderRegisters s
  obtain ⟨l, n, i, e⟩ := performAll_initPasses _ _ (initPasses_sends s.cfg)
    { s with trace := s.trace ++ [.delay s.cfg.tPowerOn] } rfl
  have e1 : performAll (initSequence s.cfg) s = performAll [.ghostReady, .setLifecycle .READY, .done .OK]
      (performAll ((initPasses s.cfg).flatMap (fun p => initPass p.1 p.2.1 p.2.2))
        { s with trace := s.trace ++ [.delay s.cfg.tPowerOn] }) := by
    rw [initSequence_eq, performAll_cons, performAll_append]; rfl
  have hl : (initPasses s.cfg).getLast? = some (9#4, sendInstruction s.cfg s.cfg.bDisplayDefault, s.cfg.tInit9) := rfl
  have hp : streamPins s.cfg s.pins ((initSteps s.cfg).map (·.1)) = bytePins s.cfg .COMMAND s.cfg.bDisplayDefault := rfl
  rw [e1, e, hl] at hr ⊢
  rw [initEvents_eq]
  simp only [hp] at hr ⊢
  simp [perform] at hr
  obtain ⟨rfl, rfl, rfl⟩ := hr
  simp [perform]

end Sys2Proof.Laws
end

