-- ==== Sys2Proof/Laws/Render.lean ====
section
/-! SUPPORT. The renderer: its loop puts the closed form of 44_text_renderer.md rule R169 on the lines. -/

namespace Sys2Proof.Laws

open Sys2Proof.Machine

/-- What the loop still sends on line `k` with the counter at `n` and the text `r` unconsumed. -/
def loopSent (k : Line) (n : Nat) (r : List Byte) : List Sent :=
  match k with
  | .one =>
    if r.length ≤ 16 - n then r.map Sent.char
    else (r.take (16 - n)).map Sent.char ++ .instr 0xC0#8 :: ((r.drop (16 - n)).take 16).map Sent.char
  | .two => (r.take (16 - n)).map Sent.char

@[simp] theorem loopSent_nil (k : Line) (n : Nat) : loopSent k n [] = [] := by cases k <;> simp [loopSent]

/-- A character that fits. -/
theorem loopSent_fits (k : Line) {n : Nat} (h : n < 16) (b : Byte) (r : List Byte) :
    loopSent k n (b :: r) = .char b :: loopSent k (n + 1) r := by
  have hk : 16 - n = 16 - (n + 1) + 1 := by omega
  cases k with
  | one =>
    simp only [loopSent, List.length_cons]
    rw [hk]
    generalize 16 - (n + 1) = w
    by_cases hl : r.length ≤ w <;> simp [hl]
  | two => simp only [loopSent]; rw [hk]; simp

/-- The wrap. -/
theorem loopSent_wrap {n : Nat} (h : 16 ≤ n) (b : Byte) (r : List Byte) :
    loopSent .one n (b :: r) = .instr 0xC0#8 :: .char b :: loopSent .two 1 r := by
  have hk : 16 - n = 0 := by omega
  simp [loopSent, hk]

/-- The truncation. -/
theorem loopSent_full {n : Nat} (h : 16 ≤ n) (r : List Byte) : loopSent .two n r = [] := by
  have hk : 16 - n = 0 := by omega
  simp [loopSent, hk]

theorem renderSent_eq (k : Line) (o : Word) (t : List Byte) :
    renderSent k o t = .instr (addressByte k o) :: loopSent k o.toNat t := by
  cases k
  · simp only [renderSent, loopSent]; split <;> simp
  · rfl

@[simp] theorem norm_number (k : Line) : norm k.number = k := by cases k <;> rfl

@[simp] theorem normDiag_number (k : Line) : normDiag k.number = [] := by cases k <;> rfl

theorem sends_setLineStart_two (c : Config) : Sends c (setLineStart c 2#32) [.instr 0xC0#8] := by
  have h : setLineStart c 2#32 = sendInstruction c 0xC0#8 := rfl
  rw [h]; exact sends_instr c _

theorem sends_setPosition (c : Config) (k : Line) (o : Word) :
    Sends c (setPosition c k.number o) [.instr (addressByte k o)] := by
  have h : setPosition c k.number o = sendInstruction c (addressByte k o) := by simp [setPosition]
  rw [h]; exact sends_instr c _

/-- The text not yet consumed at index `i`. -/
def textFrom (t : Vector Byte 50) (i : Nat) : List Byte := (t.toList.drop i).takeWhile (· != 0#8)

theorem textFrom_zero (t : Vector Byte 50) : textFrom t 0 = textOf t := by simp [textFrom, textOf]

theorem textFrom_stop {t : Vector Byte 50} {i : Nat} (h : textRead t i = 0#8) : textFrom t i = [] := by
  rw [textFrom]
  rw [textRead, List.getD_eq_getElem?_getD, ← List.head?_drop] at h
  cases e : t.toList.drop i with
  | nil => rfl
  | cons b r => simp_all

theorem textFrom_next {t : Vector Byte 50} {i : Nat} (h : textRead t i ≠ 0#8) :
    textFrom t i = textRead t i :: textFrom t (i + 1) := by
  rw [textRead, List.getD_eq_getElem?_getD, ← List.head?_drop] at *
  simp only [textFrom]
  have hd : t.toList.drop (i + 1) = (t.toList.drop i).tail := by simp
  rw [hd]
  cases e : t.toList.drop i with
  | nil => simp_all
  | cons b r => simp_all

theorem sends_renderLoop (c : Config) (t : Vector Byte 50) :
    ∀ (fuel : Nat) (k : Line) (n : Word) (i : BitVec 6), i.toNat + fuel = 50 →
      Sends c (renderLoop c t fuel k n i) (loopSent k n.toNat (textFrom t i.toNat)) := by
  intro fuel
  induction fuel with
  | zero =>
    intro k n i hi
    have : textFrom t i.toNat = [] := by
      simp only [textFrom]
      rw [List.drop_eq_nil_of_le (by simp; omega)]; rfl
    rw [this]
    cases k <;> simp [renderLoop, loopSent, sends_nil]
  | succ f ih =>
    intro k n i hi
    have hi1 : (i + 1#6).toNat = i.toNat + 1 := by
      rw [BitVec.toNat_add]; simp; omega
    simp only [renderLoop]
    by_cases hb : textRead t i.toNat = 0#8
    · rw [textFrom_stop hb]
      simp [hb, sends_nil]
    · rw [textFrom_next hb]
      simp only [hb, if_false, CHARS_PER_LINE]
      by_cases hn : 16 ≤ n.toNat
      · simp only [hn, if_true]
        cases k with
        | one =>
          have := ((((sends_setLineStart_two c).append
            (sends_work c [.setLn .two, .setCnt 0#32] (by simp))).append
            (sends_char c (textRead t i.toNat))).append
            (sends_work c [.setIdx (i + 1#6), .setCnt 1#32] (by simp))).append
            (ih .two 1#32 (i + 1#6) (by omega))
          rw [loopSent_wrap hn]
          simpa [hi1] using this
        | two => rw [loopSent_full hn]; exact sends_nil c
      · simp only [hn, if_false]
        have hn1 : (n + 1#32).toNat = n.toNat + 1 := by
          rw [BitVec.toNat_add]; simp; omega
        have := ((sends_char c (textRead t i.toNat)).append
            (sends_work c [.setIdx (i + 1#6), .setCnt (n + 1#32)] (by simp))).append
            (ih k (n + 1#32) (i + 1#6) (by omega))
        rw [hi1, hn1] at this
        rw [loopSent_fits k (by omega)]
        simpa using this

/-- `render` with the text present, less the diagnostic (R163, R169). -/
theorem renderText_eq (c : Config) (t : Vector Byte 50) (l o : Word) :
    renderText c t l o = normDiag l ++
      ([.setLn (norm l)] ++ setPosition c (norm l).number o ++ [.setCnt o, .setIdx 0#6]
        ++ renderLoop c t 50 (norm l) o 0#6) := by
  simp [renderText, TEXT_CAP]

theorem sends_renderText (c : Config) (t : Vector Byte 50) (l o : Word) :
    Sends c ([.setLn (norm l)] ++ setPosition c (norm l).number o ++ [.setCnt o, .setIdx 0#6]
        ++ renderLoop c t 50 (norm l) o 0#6) (renderSent (norm l) o (textOf t)) := by
  rw [renderSent_eq, ← textFrom_zero]
  have := (((sends_work c [.setLn (norm l)] (by simp)).append (sends_setPosition c (norm l) o)).append
    (sends_work c [.setCnt o, .setIdx 0#6] (by simp))).append (sends_renderLoop c t 50 (norm l) o 0#6 (by simp))
  simpa using this

/-- The loop never reads past index 32: it depends on the first 33 bytes of the text alone (R191, R192). -/
theorem renderLoop_reads_below_33 (c : Config) (t u : Vector Byte 50)
    (h : ∀ i, i < 33 → textRead t i = textRead u i) :
    ∀ (fuel : Nat) (k : Line) (n : Word) (i : BitVec 6),
      i.toNat + (16 - n.toNat) + (if k = .one then 16 else 0) ≤ 32 →
      renderLoop c t fuel k n i = renderLoop c u fuel k n i := by
  intro fuel
  induction fuel with
  | zero => intros; rfl
  | succ f ih =>
    intro k n i hi
    have hr := h i.toNat (by split at hi <;> omega)
    simp only [renderLoop, hr]
    have hi1 : i.toNat ≤ 32 := by split at hi <;> omega
    have hi1 : (i + 1#6).toNat = i.toNat + 1 := by rw [BitVec.toNat_add]; simp; omega
    by_cases hb : textRead u i.toNat = 0#8
    · simp [hb]
    · by_cases hn : CHARS_PER_LINE ≤ n.toNat
      · cases k with
        | one =>
          have := ih .two 1#32 (i + 1#6) (by simp only [CHARS_PER_LINE] at hn; rw [hi1]; simp at hi ⊢; omega)
          simp [hb, hn, this]
        | two => simp [hb, hn]
      · have hn' : n.toNat < 16 := by simpa [CHARS_PER_LINE] using hn
        have hn1 : (n + 1#32).toNat = n.toNat + 1 := by rw [BitVec.toNat_add]; simp; omega
        have := ih k (n + 1#32) (i + 1#6) (by rw [hi1, hn1]; split at hi <;> simp_all <;> omega)
        simp [hb, hn, this]

end Sys2Proof.Laws
end

