-- ==== Sys2Proof/Laws/Split.lean ====
section
/-! SUPPORT. A list of primitives cut after an event: the two parts, one cut after another, and what is left at the end. -/

namespace Sys2Proof.Laws

open Sys2Proof.Machine

theorem split_parts (k : Nat) (as : List Act) : (splitEvents k as).1 ++ (splitEvents k as).2 = as := by
  induction as generalizing k with
  | nil => cases k <;> rfl
  | cons a as ih =>
    cases k with
    | zero => rfl
    | succ k =>
      simp only [splitEvents]
      split
      · simpa using ih k
      · simpa using ih (k + 1)

@[simp] theorem split_zero (as : List Act) : splitEvents 0 as = ([], as) := by cases as <;> rfl

/-- Cutting what a cut left. -/
theorem split_split (j k : Nat) (as : List Act) :
    splitEvents (k + j) as =
      ((splitEvents k as).1 ++ (splitEvents j (splitEvents k as).2).1, (splitEvents j (splitEvents k as).2).2) := by
  induction as generalizing k with
  | nil => cases k <;> cases j <;> rfl
  | cons a as ih =>
    cases k with
    | zero => simp
    | succ k =>
      have e : k + 1 + j = (k + j) + 1 := by omega
      rw [e]
      simp only [splitEvents]
      split
      · rw [ih k]; simp
      · have h : k + j + 1 = k + 1 + j := by omega
        rw [h, ih (k + 1)]; simp

theorem perform_withPending (a : Act) (p : List Act) (t : State) :
    perform a { t with pending := p } = { perform a t with pending := p } := by
  cases a <;> rfl

theorem performAll_withPending (as p : List Act) (t : State) :
    performAll as { t with pending := p } = { performAll as t with pending := p } := by
  induction as generalizing t with
  | nil => rfl
  | cons a as ih => rw [performAll_cons, perform_withPending]; exact ih _

/-- Emitting events, then more events, is emitting them together (R30). -/
theorem emit_emit (j k : Nat) (as : List Act) (s : State) :
    emitEvents j (emitEvents k as s).pending (emitEvents k as s) = emitEvents (k + j) as s := by
  simp only [emitEvents]
  rw [performAll_withPending, split_split j k as, performAll_append]

/-- How many events a list of primitives has. -/
def eventCount (as : List Act) : Nat := as.countP Act.isEvent

@[simp] theorem eventsOf_length (g : Diag) (as : List Act) : (eventsOf g as).length = eventCount as := by
  induction as generalizing g with
  | nil => rfl
  | cons a as ih =>
    have ih : ∀ g, (eventsOf g as).length = as.countP Act.isEvent := ih
    cases a <;> simp [eventsOf, eventCount, List.countP_cons, Act.isEvent, ih]

/-- A list that ends with an event is done, to its end, once all its events are out. -/
theorem split_all (as : List Act) (a : Act) (ha : a.isEvent = true) (k : Nat) (hk : eventCount (as ++ [a]) ≤ k) :
    splitEvents k (as ++ [a]) = (as ++ [a], []) := by
  induction as generalizing k with
  | nil =>
    cases k with
    | zero => simp [eventCount, ha] at hk
    | succ k => cases k <;> simp [splitEvents, ha]
  | cons b as ih =>
    cases k with
    | zero =>
      simp only [eventCount, List.countP_append, List.countP_singleton, ha] at hk
      simp at hk
    | succ k =>
      simp only [List.cons_append, splitEvents]
      split
      · rename_i hb
        have hk' : eventCount (as ++ [a]) ≤ k := by simp [eventCount, hb] at hk ⊢; omega
        rw [ih k hk']
      · rename_i hb
        have hk' : eventCount (as ++ [a]) ≤ k + 1 := by simp [eventCount, hb] at hk ⊢; omega
        rw [ih (k + 1) hk']

/-- The events of the first part are the first events (R30). -/
theorem eventsOf_split (g : Diag) (k : Nat) (as : List Act) :
    eventsOf g (splitEvents k as).1 = (eventsOf g as).take k := by
  induction as generalizing g k with
  | nil => cases k <;> simp [splitEvents, eventsOf]
  | cons a as ih =>
    cases k with
    | zero => simp [eventsOf]
    | succ k => cases a <;> simp [splitEvents, Act.isEvent, eventsOf, ih]

end Sys2Proof.Laws
end

