-- ==== Sys2Proof/Laws/Step.lean ====
section
/-! SUPPORT. What one step can do, said once, and how a request's list of primitives ends. -/

namespace Sys2Proof.Laws

open Sys2Proof.Machine

theorem decodeLcd8_encodes : ∀ b : Byte,
    (match decodeLcd8 b with | .ok i => decide (encode i = .lcd8 b) | .error _ => true) = true := by
  decide +kernel

/-- An instruction whose word is the LCD byte `b` sends `b`. -/
theorem exec_of_lcd8 {i : Instr} {b : Byte} (h : encode i = .lcd8 b) (s : State) : exec i s = .next (transmit b s) := by
  cases i <;> simp only [encode, Encoded.lcd8.injEq, reduceCtorEq] at h <;> subst h <;> rfl

/-- A byte called for by itself is sent, whether or not it is a row of the table (R125). -/
theorem runByte_eq (b : Byte) (s : State) : runByte b s = .next (transmit b s) := by
  have h := decodeLcd8_encodes b
  unfold runByte
  split
  · rename_i i hd
    rw [hd] at h
    exact exec_of_lcd8 (by simpa using h) s
  · rfl

theorem runFrame_eq (w : BitVec 5) (s : State) :
    runFrame w s = .next (performAll (sendFrame s.cfg (w.getLsbD 4) (w.extractLsb' 0 4)) s) := rfl

/-- The state a request leaves: to its `Done`, or after its first `k` events. -/
def requestState (r : Request) (hold : Option Nat) (s : State) : State :=
  match hold with
  | none => performAll (actsOf (decodeReq10 r.word) (accept r s)) (accept r s)
  | some k => emitEvents k (actsOf (decodeReq10 r.word) (accept r s)) (accept r s)

theorem runRequest_eq (r : Request) (hold : Option Nat) (s : State) :
    runRequest r hold s = .next (requestState r hold s) := by
  cases hold
  · exact exec_eq_performAll _ _
  · rfl

/-- Everything a step that answers a next state can have done. -/
theorem step_cases {s t : State} (h : step s = .next t) :
    (∃ rest, s.inputs = .reset :: rest ∧ t = applyReset { s with inputs := rest }) ∨
    (∃ rest, s.inputs = .lcdLost :: rest ∧ t = loseLcd { s with inputs := rest }) ∨
    (s.undisturbed = true ∧ s.busy = true ∧ s.pending ≠ [] ∧ t = emitEvents 1 s.pending s) ∨
    (∃ r hold rest, s.busy = false ∧ s.inputs = .request r hold :: rest ∧
      t = requestState r hold { s with inputs := rest }) ∨
    (∃ b rest, s.busy = false ∧ s.inputs = .byte b :: rest ∧ t = transmit b { s with inputs := rest }) ∨
    (∃ w rest, s.busy = false ∧ s.inputs = .frame w :: rest ∧
      t = performAll (sendFrame s.cfg (w.getLsbD 4) (w.extractLsb' 0 4)) { s with inputs := rest }) ∨
    (s.busy = false ∧ s.inputs = [] ∧ t = s) := by
  have hres : resume s = .next t → s.pending ≠ [] ∧ t = emitEvents 1 s.pending s := by
    intro h
    unfold resume at h
    split at h
    · cases h
    · rename_i a as hp; rw [hp]; cases h; exact ⟨by simp, rfl⟩
  cases hi : s.inputs with
  | nil =>
    simp only [step, hi, whenIdle] at h
    split at h
    · rename_i hb; exact .inr (.inr (.inl ⟨by simp [State.undisturbed, hi], hb, hres h⟩))
    · rename_i hb; cases h; simp_all
  | cons x rest =>
    cases x with
    | reset => simp only [step, hi] at h; cases h; exact .inl ⟨rest, rfl, rfl⟩
    | lcdLost => simp only [step, hi] at h; cases h; exact .inr (.inl ⟨rest, rfl, rfl⟩)
    | otherAgent => simp [step, hi] at h
    | request r hold =>
      simp only [step, hi, whenIdle, runRequest_eq] at h
      split at h
      · rename_i hb; exact .inr (.inr (.inl ⟨by simp [State.undisturbed, hi, Input.isAsync], hb, hres h⟩))
      · rename_i hb; cases h
        exact .inr (.inr (.inr (.inl ⟨r, hold, rest, by simpa using hb, rfl, rfl⟩)))
    | byte b =>
      simp only [step, hi, whenIdle, runByte_eq] at h
      split at h
      · rename_i hb; exact .inr (.inr (.inl ⟨by simp [State.undisturbed, hi, Input.isAsync], hb, hres h⟩))
      · rename_i hb; cases h
        exact .inr (.inr (.inr (.inr (.inl ⟨b, rest, by simpa using hb, rfl, rfl⟩))))
    | frame w =>
      simp only [step, hi, whenIdle, runFrame_eq] at h
      split at h
      · rename_i hb; exact .inr (.inr (.inl ⟨by simp [State.undisturbed, hi, Input.isAsync], hb, hres h⟩))
      · rename_i hb; cases h
        exact .inr (.inr (.inr (.inr (.inr (.inl ⟨w, rest, by simpa using hb, rfl, rfl⟩)))))

/-- A request word decodes to a request row. -/
theorem decodeReq10_isRequest : ∀ w : BitVec 10, isRequestRow (decodeReq10 w) = true := by
  intro w
  simp only [decodeReq10, decodeCommand]
  repeat' split
  all_goals rfl

/-! ### How lists of primitives end: `closes` -/

theorem closes_sendFrame (c : Config) (rs : Bool) (n : Nibble) (e : Bool) (l : Lifecycle) (as : List Act) :
    closes e l (sendFrame c rs n ++ as) = closes false l as := by
  simp [sendFrame, closes]

theorem closes_sendByte (c : Config) (m : Mode) (b : Byte) (e : Bool) (l : Lifecycle) (as : List Act) :
    closes e l (sendByte c m b ++ as) = closes false l as := by
  simp [sendByte, sendNibble, closes_sendFrame]

theorem closes_normDiag (w : Word) (e : Bool) (l : Lifecycle) (as : List Act) :
    closes e l (normDiag w ++ as) = closes e l as := by
  unfold normDiag; split <;> simp [closes]

theorem closes_renderLoop (c : Config) (t : Vector Byte 50) (l : Lifecycle) (as : List Act) :
    ∀ fuel k n i, closes false l (renderLoop c t fuel k n i ++ as) = closes false l as := by
  intro fuel
  induction fuel with
  | zero => intros; rfl
  | succ f ih =>
    intro k n i
    simp only [renderLoop]
    split
    · rfl
    · split
      · cases k
        · simp [setLineStart, closes_normDiag, sendInstruction, sendCharacter, closes_sendByte, closes, ih]
        · rfl
      · simp [sendCharacter, closes_sendByte, closes, ih]

theorem closes_render (c : Config) (t : Vector Byte 50) (p : Bool) (a o : Word) (l : Lifecycle) (as : List Act) :
    closes false l (render c t p a o ++ as) = closes false l as := by
  unfold render
  split
  · simp [renderText, setPosition, closes_normDiag, sendInstruction, closes_sendByte, closes, closes_renderLoop]
  · simp [closes]

theorem closes_wake (c : Config) (b : Byte) (e : Bool) (l : Lifecycle) (as : List Act) :
    closes e l (wake c b ++ as) = closes false l as := by
  unfold wake; split
  · exact closes_sendFrame ..
  · exact closes_sendByte ..

theorem closes_initPass (k : BitVec 4) (em : List Act) (t : Nat) (e : Bool) (l : Lifecycle) (as : List Act)
    (h : ∀ bs, closes e l (em ++ bs) = closes false l bs) :
    closes e l (initPass k em t ++ as) = closes false l as := by
  simp [initPass, closes, h]

theorem closes_initSequence (c : Config) (e : Bool) : closes e .UNINIT (initSequence c) = true := by
  have hw := fun b e bs => closes_wake c b e .UNINIT bs
  have hs : ∀ b e bs, closes e .UNINIT (sendInstruction c b ++ bs) = closes false .UNINIT bs :=
    fun b e bs => closes_sendByte c .COMMAND b e .UNINIT bs
  simp only [initSequence, List.append_assoc, List.cons_append, List.nil_append, closes]
  rw [closes_initPass _ _ _ _ _ _ (hw _ _), closes_initPass _ _ _ _ _ _ (hw _ _), closes_initPass _ _ _ _ _ _ (hw _ _),
    closes_initPass _ _ _ _ _ _ (hw _ _), closes_initPass _ _ _ _ _ _ (hs _ _), closes_initPass _ _ _ _ _ _ (hs _ _),
    closes_initPass _ _ _ _ _ _ (hs _ _), closes_initPass _ _ _ _ _ _ (hs _ _), closes_initPass _ _ _ _ _ _ (hs _ _)]
  rfl

/-- What a request performs ends properly, from E low (R185, R32(a)). -/
theorem closes_actsOf {i : Instr} (hi : isRequestRow i = true) (s : State) :
    closes false s.lifecycle (actsOf i s) = true := by
  have hr : ∀ (p : Bool) (a o : Word),
      closes false s.lifecycle (render s.cfg s.text p a o ++ [.done .OK]) = true := by
    intro p a o; rw [closes_render]; rfl
  have hs : ∀ b, closes false s.lifecycle (sendInstruction s.cfg b ++ [.done .OK]) = true := by
    intro b; rw [sendInstruction, closes_sendByte]; rfl
  cases i with
  | init code =>
    simp only [actsOf, initActs]
    split
    · rfl
    · rename_i h
      have h : s.lifecycle = .UNINIT := by simpa using h
      rw [h]
      split
      · rfl
      · exact closes_initSequence _ _
  | clear => simp only [actsOf, clearActs, whenReady]; split; exacts [hs _, rfl]
  | printLine1 => simp only [actsOf, printLine1Acts, whenReady]; split; exacts [hr _ _ _, rfl]
  | printLine2 => simp only [actsOf, printLine2Acts, whenReady]; split; exacts [hr _ _ _, rfl]
  | printAt => simp only [actsOf, printAtActs, whenReady]; split; exacts [hr _ _ _, rfl]
  | cursorOn => simp only [actsOf, cursorOnActs, whenReady]; split; exacts [hs _, rfl]
  | cursorOff => simp only [actsOf, cursorOffActs, whenReady]; split; exacts [hs _, rfl]
  | write code =>
    simp only [actsOf, writeActs, whenReady]
    split
    · rw [List.append_assoc, sendInstruction, closes_sendByte]; exact hr _ _ _
    · rfl
  | cmdUnsupported code => simp only [actsOf, cmdUnsupportedActs, whenReady]; split <;> rfl
  | req3 code => simp only [actsOf, req3Acts, whenReady]; split <;> rfl
  | lcdClear => cases hi
  | lcdEntryMode => cases hi
  | lcdDisplayControl => cases hi
  | lcdFunctionSet => cases hi
  | lcdAddressSet => cases hi
  | frame => cases hi

/-- A properly ending list is a body with no `Done` in it and then its one `Done`. -/
theorem closes_done {e : Bool} {l : Lifecycle} {as : List Act} (h : closes e l as = true) :
    ∃ body st, as = body ++ [.done st] ∧ ∀ a ∈ body, ∀ q, a ≠ .done q := by
  induction as generalizing e l with
  | nil => cases h
  | cons a as ih =>
    have go : ∀ e' l', (∀ q, a ≠ .done q) → closes e' l' as = true →
        ∃ body st, a :: as = body ++ [.done st] ∧ ∀ x ∈ body, ∀ q, x ≠ .done q := by
      intro e' l' ha hc
      obtain ⟨body, st, e1, e2⟩ := ih hc
      refine ⟨a :: body, st, by simp [e1], ?_⟩
      intro x hx
      rcases List.mem_cons.1 hx with rfl | hx
      · exact ha
      · exact e2 x hx
    cases a with
    | done st =>
      simp only [closes, Bool.and_eq_true, List.isEmpty_iff] at h
      exact ⟨[], st, by simp [h.1], by simp⟩
    | pinWrite x v =>
      simp only [closes] at h
      split at h <;> exact go _ _ (by simp) h
    | setLifecycle k =>
      simp only [closes, Bool.and_eq_true] at h
      exact go _ _ (by simp) h.2
    | delay => exact go _ _ (by simp) h
    | diag => exact go _ _ (by simp) h
    | setLn => exact go _ _ (by simp) h
    | setCnt => exact go _ _ (by simp) h
    | setIdx => exact go _ _ (by simp) h
    | setStep => exact go _ _ (by simp) h
    | ghostReady => exact go _ _ (by simp) h

end Sys2Proof.Laws
end

