-- ==== Sys2Proof/Laws/Closing.lean ====
section
/-! SUPPORT. What `closes` says of a state that performs part of a list, and all of it. -/

namespace Sys2Proof.Laws

open Sys2Proof.Machine

/-- After a part of a properly ending list the rest ends properly from there, the driver is as busy as before, and the lifecycle
has moved at most out of `UNINIT`. -/
theorem closes_part {as bs : List Act} (s : State)
    (h : closes s.pins.e s.lifecycle (as ++ bs) = true) (hb : bs ≠ []) :
    closes (performAll as s).pins.e (performAll as s).lifecycle bs = true ∧ (performAll as s).busy = s.busy
    ∧ ((performAll as s).lifecycle = s.lifecycle ∨ (s.lifecycle = .UNINIT ∧ (performAll as s).lifecycle ≠ .UNINIT)) := by
  induction as generalizing s with
  | nil => exact ⟨h, rfl, .inl rfl⟩
  | cons a as ih =>
    rw [performAll_cons]
    have key : closes (perform a s).pins.e (perform a s).lifecycle (as ++ bs) = true ∧ (perform a s).busy = s.busy ∧
      ((perform a s).lifecycle = s.lifecycle ∨ (s.lifecycle = .UNINIT ∧ (perform a s).lifecycle ≠ .UNINIT)) := by
      cases a with
      | done st => simp [closes, hb] at h
      | pinWrite x v =>
        simp only [List.cons_append, closes] at h
        cases x <;> simp at h <;> exact ⟨h, rfl, .inl rfl⟩
      | setLifecycle k =>
        simp only [List.cons_append, closes, Bool.and_eq_true, decide_eq_true_eq] at h
        exact ⟨h.2, rfl, .inr h.1⟩
      | _ => exact ⟨h, rfl, .inl rfl⟩
    obtain ⟨k1, k2, k3⟩ := key
    obtain ⟨i1, i2, i3⟩ := ih _ k1
    refine ⟨i1, i2.trans k2, ?_⟩
    rcases k3 with k3 | ⟨k3, k4⟩
    · rw [k3] at i3; exact i3
    · rcases i3 with i3 | ⟨i3, _⟩
      · right; rw [i3]; exact ⟨k3, k4⟩
      · exact absurd i3 k4

/-- After all of a properly ending list the driver is idle with E low. -/
theorem closes_whole (s : State) (as : List Act) (h : closes s.pins.e s.lifecycle as = true) :
    (performAll as s).busy = false ∧ (performAll as s).pins.e = false
    ∧ ((performAll as s).lifecycle = s.lifecycle ∨ (s.lifecycle = .UNINIT ∧ (performAll as s).lifecycle ≠ .UNINIT)) := by
  obtain ⟨body, st, rfl, _⟩ := closes_done h
  obtain ⟨h1, h2, h3⟩ := closes_part s h (by simp)
  rw [performAll_append]
  simp only [closes, Bool.and_eq_true] at h1
  refine ⟨rfl, ?_, h3⟩
  have := h1.2
  simp at this
  exact this

/-- Outside `UNINIT` a properly ending list writes no lifecycle. -/
theorem closes_noLifecycle {e : Bool} {l : Lifecycle} {as : List Act} (h : closes e l as = true) (hl : l ≠ .UNINIT) :
    ∀ k, Act.setLifecycle k ∉ as := by
  induction as generalizing e l with
  | nil => simp
  | cons a as ih =>
    intro k hk
    cases a with
    | done st => simp [closes] at h; simp [h.1] at hk
    | pinWrite x v =>
      simp at hk; simp only [closes] at h; split at h <;> exact ih h hl k hk
    | setLifecycle q => simp [closes] at h; exact hl h.1.1
    | _ => simp at hk; exact ih h hl k hk

/-- A list cut before its last event leaves something. -/
theorem split_short (k : Nat) (as : List Act) (h : k < eventCount as) : (splitEvents k as).2 ≠ [] := by
  intro hr
  have hp := split_parts k as
  rw [hr] at hp
  have he := eventsOf_split Diag.clear k as
  simp at hp
  rw [hp] at he
  have := congrArg List.length he
  simp at this; omega

/-! ### A lost LCD -/

/-- Without the ghost's own step a properly ending list ends properly. -/
theorem closes_strike {e : Bool} {l : Lifecycle} {as : List Act} (h : closes e l as = true) :
    closes e l (as.filter (fun a => a != .ghostReady)) = true := by
  induction as generalizing e l with
  | nil => exact h
  | cons a as ih =>
    cases a with
    | done st =>
      simp only [closes, Bool.and_eq_true, List.isEmpty_iff] at h
      simp [closes, h.1, h.2]
    | pinWrite x v =>
      simp only [closes] at h
      simp only [List.filter_cons, show (Act.pinWrite x v != .ghostReady) = true from rfl, if_true, closes]
      split at h <;> rename_i hx <;> simp only [hx, if_true, if_false] <;> exact ih h
    | setLifecycle k =>
      simp only [closes, Bool.and_eq_true] at h
      simp only [List.filter_cons, show (Act.setLifecycle k != .ghostReady) = true from rfl, if_true, closes, Bool.and_eq_true]
      exact ⟨h.1, ih h.2⟩
    | ghostReady => exact ih h
    | _ => exact ih (by simpa [closes] using h)

/-- Without the ghost's own step a list leaves the same events. -/
theorem eventsOf_strike (g : Diag) (as : List Act) :
    eventsOf g (as.filter (fun a => a != .ghostReady)) = eventsOf g as := by
  induction as generalizing g with
  | nil => rfl
  | cons a as ih => cases a <;> simp [eventsOf, ih]

/-- Losing the LCD leaves the driver idle or running as it was. -/
theorem idleOrRunning_loseLcd {s : State} (h : idleOrRunning s = true) : idleOrRunning (loseLcd s) = true := by
  cases hb : s.busy with
  | true =>
    simp only [idleOrRunning, loseLcd, hb, if_true] at h ⊢
    exact closes_strike h
  | false =>
    simp [idleOrRunning, hb] at h
    simp [idleOrRunning, hb, h.1, h.2]

/-! ### Who writes the lifecycle -/

/-- A list moves the lifecycle only to a value it writes. -/
theorem performAll_lifecycle (as : List Act) (s : State) :
    (performAll as s).lifecycle = s.lifecycle ∨ Act.setLifecycle (performAll as s).lifecycle ∈ as := by
  induction as generalizing s with
  | nil => exact .inl rfl
  | cons a as ih =>
    rw [performAll_cons]
    rcases ih (perform a s) with h | h
    · cases a with
      | setLifecycle k => right; rw [h]; exact .head _
      | _ => exact .inl h
    · exact .inr (.tail _ h)

theorem own_sendFrame (q : BitVec 2) (ok : Bool) (c : Config) (rs : Bool) (n : Nibble) :
    (sendFrame c rs n).all (Act.ownLifecycle q ok) = true := rfl

theorem own_sendByte (q : BitVec 2) (ok : Bool) (c : Config) (m : Mode) (b : Byte) :
    (sendByte c m b).all (Act.ownLifecycle q ok) = true := rfl

theorem own_renderLoop (q : BitVec 2) (ok : Bool) (c : Config) (t : Vector Byte 50) (f : Nat) (k : Line) (n : Word)
    (i : BitVec 6) : (renderLoop c t f k n i).all (Act.ownLifecycle q ok) = true := by
  induction f generalizing k n i with
  | zero => rfl
  | succ f ih =>
    simp only [renderLoop]
    split
    · rfl
    · split
      · cases k
        · simp only [List.all_append, Bool.and_eq_true]
          exact ⟨⟨⟨⟨rfl, rfl⟩, rfl⟩, rfl⟩, ih _ _ _⟩
        · rfl
      · simp only [List.all_append, Bool.and_eq_true]
        exact ⟨⟨rfl, rfl⟩, ih _ _ _⟩

theorem own_normDiag (q : BitVec 2) (ok : Bool) (l : Word) : (normDiag l).all (Act.ownLifecycle q ok) = true := by
  unfold normDiag; split <;> rfl

theorem own_setPosition (q : BitVec 2) (ok : Bool) (c : Config) (l o : Word) :
    (setPosition c l o).all (Act.ownLifecycle q ok) = true := by
  simp only [setPosition, List.all_append, own_normDiag, Bool.true_and]; rfl

theorem own_render (q : BitVec 2) (ok : Bool) (c : Config) (t : Vector Byte 50) (p : Bool) (a o : Word) :
    (render c t p a o).all (Act.ownLifecycle q ok) = true := by
  unfold render renderText
  split
  · simp only [List.all_append, own_renderLoop, own_normDiag, own_setPosition]; rfl
  · rfl

theorem own_init (c : Config) : (initSequence c).all (Act.ownLifecycle 0#2 true) = true := by
  simp only [initSequence, initPass, wake, List.all_append, List.all_cons]
  cases c.wakeFraming <;> rfl

/-- No request but INIT writes the lifecycle. -/
theorem own_row {i : Instr} (hi : isRequestRow i = true) (hn : isInitRow i = false) (q : BitVec 2) (ok : Bool) (s : State) :
    (actsOf i s).all (Act.ownLifecycle q ok) = true := by
  have hw : ∀ body : List Act, body.all (Act.ownLifecycle q ok) = true →
      (whenReady s body).all (Act.ownLifecycle q ok) = true := by
    intro body h; unfold whenReady; split
    · exact h
    · rfl
  cases i <;> first | (cases hi; done) | (cases hn; done) | skip
  all_goals
    simp only [actsOf, clearActs, printLine1Acts, printLine2Acts, printAtActs, cursorOnActs, cursorOffActs, writeActs,
      cmdUnsupportedActs, req3Acts]
    apply hw
    first | rfl | (simp only [List.all_append, own_render, sendInstruction, own_sendByte]; rfl)

/-- INIT writes `READY` with `setup_ok = 1` and `FAILED` with `setup_ok = 0`. -/
theorem own_initActs (s : State) : (initActs s).all (Act.ownLifecycle 0#2 s.setupOk) = true := by
  unfold initActs
  split
  · rfl
  · cases h : s.setupOk
    · rfl
    · exact own_init _

/-- Only the words of kind 0 are INIT's (30_encoding.md rule R81). -/
theorem kind_of_init : ∀ w : BitVec 10, isInitRow (decodeReq10 w) = true → w.extractLsb' 8 2 = 0#2 := by decide +kernel

/-- What an accepted request performs writes the lifecycle only where its kind is INIT's, and then as R22 says. -/
theorem own_actsOf (r : Request) (s : State) :
    (actsOf (decodeReq10 r.word) (accept r s)).all (Act.ownLifecycle r.kind r.setupOk) = true := by
  cases hn : isInitRow (decodeReq10 r.word) with
  | false => exact own_row (decodeReq10_isRequest _) hn _ _ _
  | true =>
    have hk : ∀ (a : BitVec 2) (b : BitVec 8), (a ++ b).extractLsb' 8 2 = a := by decide +kernel
    have h0 : r.kind = 0#2 := (hk r.kind r.code).symm.trans (kind_of_init _ hn)
    rw [h0]
    revert hn
    generalize decodeReq10 r.word = i
    intro hn
    cases i <;> first | exact own_initActs (accept r s) | cases hn

end Sys2Proof.Laws
end

