-- ==== Sys2Proof/Laws/Memory.lean ====
section
/-! SUPPORT. The display memory: reading after writing, and the canonical form. -/

namespace Sys2Proof.Laws

open Sys2Proof.Machine

theorem read_below_head {m : Memory} {a x : Nat} {b : Byte} (h : Memory.wf ((a, b) :: m) = true) (hx : x < a) :
    Memory.read m x = Memory.blank := by
  induction m generalizing a b with
  | nil => rfl
  | cons c m ih =>
    obtain ⟨a', b'⟩ := c
    simp only [Memory.wf, Bool.and_eq_true, decide_eq_true_eq] at h
    have : a' ≠ x := by omega
    simp only [Memory.read, this, if_false]
    exact ih h.2 (by omega)

theorem read_head_only {m : Memory} {a : Nat} {b : Byte} (h : Memory.wf ((a, b) :: m) = true) :
    Memory.read m a = Memory.blank := by
  cases m with
  | nil => rfl
  | cons c m =>
    obtain ⟨a', b'⟩ := c
    simp only [Memory.wf, Bool.and_eq_true, decide_eq_true_eq] at h
    have : a' ≠ a := by omega
    simp only [Memory.read, this, if_false]
    exact read_below_head h.2 (by omega)

theorem wf_tail {m : Memory} {c : Nat × Byte} (h : Memory.wf (c :: m) = true) : Memory.wf m = true := by
  cases m with
  | nil => rfl
  | cons d m => simp only [Memory.wf, Bool.and_eq_true] at h; exact h.2

theorem wf_cons_iff (m : Memory) (a : Nat) (b : Byte) :
    Memory.wf ((a, b) :: m) = true ↔
      Memory.isCell a = true ∧ b ≠ Memory.blank ∧ Memory.wf m = true ∧ ∀ c m', m = c :: m' → a < c.1 := by
  cases m with
  | nil => simp [Memory.wf]
  | cons d m =>
    obtain ⟨a', b'⟩ := d
    simp only [Memory.wf, Bool.and_eq_true, bne_iff_ne, ne_eq, decide_eq_true_eq]
    constructor
    · rintro ⟨⟨⟨h1, h2⟩, h3⟩, h4⟩
      exact ⟨h1, h2, h4, fun c m' e => by cases e; exact h3⟩
    · rintro ⟨h1, h2, h3, h4⟩
      exact ⟨⟨⟨h1, h2⟩, h4 _ _ rfl⟩, h3⟩

/-- The head of a memory after a write is the old head or the address written. -/
theorem write_head {m : Memory} {x a : Nat} {v : Byte} (ha : ∀ c m', m = c :: m' → a < c.1) (hx : a < x)
    (hm : Memory.wf m = true) : ∀ c m', Memory.write m x v = c :: m' → a < c.1 := by
  intro c m' e
  cases m with
  | nil =>
    simp only [Memory.write] at e
    split at e
    · cases e
    · cases e; exact hx
  | cons d m =>
    obtain ⟨a', b'⟩ := d
    have h' := ha _ _ rfl
    simp only [Memory.write] at e
    split at e
    · cases e; exact h'
    · split at e
      · split at e
        · subst e
          have := (wf_cons_iff _ _ _).1 hm
          have := this.2.2.2 _ _ rfl
          omega
        · cases e; exact hx
      · split at e <;> cases e
        · exact h'
        · exact hx

theorem write_wf {m : Memory} {x : Nat} {v : Byte} (hm : Memory.wf m = true) (hx : Memory.isCell x = true) :
    Memory.wf (Memory.write m x v) = true := by
  induction m with
  | nil =>
    simp only [Memory.write]
    split
    · rfl
    · simp_all [Memory.wf]
  | cons d m ih =>
    obtain ⟨a, b⟩ := d
    obtain ⟨h1, h2, h3, h4⟩ := (wf_cons_iff _ _ _).1 hm
    simp only [Memory.write]
    split
    · rename_i hax
      exact (wf_cons_iff _ _ _).2 ⟨h1, h2, ih h3, write_head h4 hax h3⟩
    · split
      · rename_i hax
        split
        · exact h3
        · rename_i hv
          exact (wf_cons_iff _ _ _).2 ⟨hx, hv, h3, by subst hax; exact h4⟩
      · split
        · exact hm
        · rename_i hv
          exact (wf_cons_iff _ _ _).2 ⟨hx, hv, hm, fun c m' e => by cases e; simp only; omega⟩

theorem read_write {m : Memory} (hm : Memory.wf m = true) (x y : Nat) (v : Byte) :
    Memory.read (Memory.write m x v) y = if x = y then v else Memory.read m y := by
  induction m with
  | nil =>
    simp only [Memory.write]
    split <;> by_cases hxy : x = y <;> simp_all [Memory.read]
  | cons d m ih =>
    obtain ⟨a, b⟩ := d
    have hd := read_head_only hm
    have hb : x < a → Memory.read m x = Memory.blank := read_below_head hm
    have ih := ih (wf_tail hm)
    simp only [Memory.write]
    split
    · simp only [Memory.read, ih]
      by_cases hay : a = y
      · subst hay
        have : x ≠ a := by omega
        simp [this]
      · simp [hay]
    · split
      · rename_i hax
        subst hax
        split <;> by_cases hxy : a = y <;> simp_all [Memory.read]
      · have hax : x < a := by omega
        split
        · rename_i hv
          by_cases hxy : x = y
          · subst hxy
            have : a ≠ x := by omega
            simp [Memory.read, this, hb hax, hv]
          · simp [hxy]
        · by_cases hxy : x = y <;> simp_all [Memory.read]

theorem advance_isCell {a : BitVec 7} (h : Memory.isCell a.toNat = true) :
    Memory.isCell (Memory.advance a).toNat = true := by
  revert a; decide

end Sys2Proof.Laws
end

