-- ==== Sys2Proof/Laws/PerInstr.lean ====
section
/-! SUPPORT. What holds of every instruction as syntax, one lemma per constructor: its word carries the fixed bits its row
of spec/opcode_table.json gives it. -/

namespace Sys2Proof.Laws

open Sys2Proof.Machine

/-- The fixed bits of each row: the table's match and mask. -/
def rowBits : Instr → Nat × Nat
  | .init _ => (0x000, 0x300)
  | .clear => (0x130, 0x3FF)
  | .printLine1 => (0x131, 0x3FF)
  | .printLine2 => (0x132, 0x3FF)
  | .printAt => (0x133, 0x3FF)
  | .cursorOn => (0x134, 0x3FF)
  | .cursorOff => (0x135, 0x3FF)
  | .write _ => (0x200, 0x300)
  | .cmdUnsupported _ => (0x100, 0x300)
  | .req3 _ => (0x300, 0x300)
  | .lcdClear => (0b00000001, 0b11111111)
  | .lcdEntryMode _ _ => (0b00000100, 0b11111100)
  | .lcdDisplayControl _ _ _ => (0b00001000, 0b11111000)
  | .lcdFunctionSet _ _ _ => (0b00100000, 0b11100011)
  | .lcdAddressSet _ => (0b10000000, 0b10000000)
  | .frame _ _ => (0b00000, 0b00000)

/-- The word of an encoded instruction as a number. -/
def wordNat : Encoded → Nat
  | .req10 w => w.toNat
  | .lcd8 b => b.toNat
  | .frame5 w => w.toNat

/-- The word of `i` has the fixed bits of its row. -/
def FixedBits.Statement (i : Instr) : Prop := wordNat (encode i) &&& (rowBits i).2 = (rowBits i).1

theorem FixedBits.init (code : BitVec 8) : FixedBits.Statement (.init code) := by
  revert code; unfold FixedBits.Statement; decide +kernel
theorem FixedBits.clear : FixedBits.Statement .clear := by unfold FixedBits.Statement; decide
theorem FixedBits.printLine1 : FixedBits.Statement .printLine1 := by unfold FixedBits.Statement; decide
theorem FixedBits.printLine2 : FixedBits.Statement .printLine2 := by unfold FixedBits.Statement; decide
theorem FixedBits.printAt : FixedBits.Statement .printAt := by unfold FixedBits.Statement; decide
theorem FixedBits.cursorOn : FixedBits.Statement .cursorOn := by unfold FixedBits.Statement; decide
theorem FixedBits.cursorOff : FixedBits.Statement .cursorOff := by unfold FixedBits.Statement; decide
theorem FixedBits.write (code : BitVec 8) : FixedBits.Statement (.write code) := by
  revert code; unfold FixedBits.Statement; decide +kernel
theorem FixedBits.cmdUnsupported (code : BitVec 8) : FixedBits.Statement (.cmdUnsupported code) := by
  revert code; unfold FixedBits.Statement; decide +kernel
theorem FixedBits.req3 (code : BitVec 8) : FixedBits.Statement (.req3 code) := by
  revert code; unfold FixedBits.Statement; decide +kernel
theorem FixedBits.lcdClear : FixedBits.Statement .lcdClear := by unfold FixedBits.Statement; decide
theorem FixedBits.lcdEntryMode (i s : Bool) : FixedBits.Statement (.lcdEntryMode i s) := by
  cases i <;> cases s <;> (unfold FixedBits.Statement; decide)
theorem FixedBits.lcdDisplayControl (d c b : Bool) : FixedBits.Statement (.lcdDisplayControl d c b) := by
  cases d <;> cases c <;> cases b <;> (unfold FixedBits.Statement; decide)
theorem FixedBits.lcdFunctionSet (w n f : Bool) : FixedBits.Statement (.lcdFunctionSet w n f) := by
  cases w <;> cases n <;> cases f <;> (unfold FixedBits.Statement; decide)
theorem FixedBits.lcdAddressSet (a : BitVec 7) : FixedBits.Statement (.lcdAddressSet a) := by
  revert a; unfold FixedBits.Statement; decide +kernel
theorem FixedBits.frame (r : Bool) (n : Nibble) : FixedBits.Statement (.frame r n) := by
  simp [FixedBits.Statement, rowBits]

end Sys2Proof.Laws
end

