-- ==== Sys2Proof/Laws/Sink.lean ====
section
/-! SUPPORT. The ghost sink: two latches are a byte, and everything a primitive does keeps its memory in canonical form. -/

namespace Sys2Proof.Laws

open Sys2Proof.Machine

theorem nibbles_append : ∀ b : Byte, (b.extractLsb' 4 4 ++ b.extractLsb' 0 4 : Byte) = b := by decide +kernel

theorem modeOf_rsLevel {c : Config} (h : c.rsCommand ≠ c.rsData) (m : Mode) : modeOf c (rsLevel c m) = m := by
  cases m <;> simp [modeOf, rsLevel, Ne.symm h]

/-- The two frames of a byte, the sink waiting for a high nibble (R66). -/
theorem byteSink_aligned {c : Config} (h : c.rsCommand ≠ c.rsData) (m : Mode) (b : Byte) {l : Lcd}
    (hl : l.half = none) : byteSink c m b (some l) = Lcd.byte m l b := by
  have e : ({ l with half := none } : Lcd) = l := by cases l; simp_all
  simp [byteSink, latchSink, Lcd.latch, hl, modeOf_rsLevel h, nibbles_append]
  rw [e]

@[simp] theorem latchSink_none (c : Config) (rs : Bool) (n : Nibble) : latchSink c rs n none = none := rfl
@[simp] theorem byteSink_none (c : Config) (m : Mode) (b : Byte) : byteSink c m b none = none := rfl

theorem instruction_ok {l : Lcd} {b : Byte} (h : sinkOk (some l) = true) : sinkOk (l.instruction b) = true := by
  simp only [sinkOk, Bool.and_eq_true] at h
  simp only [Lcd.instruction]
  repeat' split
  all_goals simp_all [sinkOk, Memory.wf]
  decide

theorem data_ok {l : Lcd} {b : Byte} (h : sinkOk (some l) = true) : sinkOk (l.data b) = true := by
  simp only [sinkOk, Bool.and_eq_true] at h
  simp only [Lcd.data, h.2, if_true, sinkOk, Bool.and_eq_true]
  exact ⟨write_wf h.1 h.2, advance_isCell h.2⟩

theorem latch_ok {c : Config} {k : Option Lcd} {rs : Bool} {n : Nibble} (h : sinkOk k = true) :
    sinkOk (latchSink c rs n k) = true := by
  cases k with
  | none => rfl
  | some l =>
    simp only [latchSink, Option.bind_some, Lcd.latch]
    split
    · simpa [sinkOk] using h
    · split
      · simp only [Lcd.byte]
        split
        · exact instruction_ok (by simpa [sinkOk] using h)
        · exact data_ok (by simpa [sinkOk] using h)
      · rfl

theorem sinkAfterInit_ok (c : Config) : sinkOk (sinkAfterInit c) = true := by
  unfold sinkAfterInit; split <;> rfl

theorem perform_sinkOk (a : Act) {s : State} (h : sinkOk s.sink = true) : sinkOk (perform a s).sink = true := by
  cases a <;> try exact h
  · simp only [perform, pinWrite]
    split
    · exact latch_ok h
    · exact h
  · exact sinkAfterInit_ok _

theorem performAll_sinkOk (as : List Act) {s : State} (h : sinkOk s.sink = true) :
    sinkOk (performAll as s).sink = true := by
  induction as generalizing s with
  | nil => exact h
  | cons a as ih => exact ih (perform_sinkOk a h)

/-- A run of characters that stays inside one row of cells (R63). -/
theorem streamSink_chars {c : Config} (hc : c.rsCommand ≠ c.rsData) (t : List Byte) :
    ∀ l : Lcd, l.half = none → sinkOk (some l) = true →
    (l.ac.toNat + t.length ≤ 0x27 ∨ (0x40 ≤ l.ac.toNat ∧ l.ac.toNat + t.length ≤ 0x67)) →
    ∃ l' : Lcd, streamSink c (some l) (t.map Sent.char) = some l' ∧ l'.half = none ∧ sinkOk (some l') = true
      ∧ l'.ac.toNat = l.ac.toNat + t.length
      ∧ (∀ a, Memory.read l'.ddram a =
          if l.ac.toNat ≤ a ∧ a < l.ac.toNat + t.length then t.getD (a - l.ac.toNat) 0#8 else Memory.read l.ddram a)
      ∧ l'.disp = l.disp ∧ l'.cur = l.cur ∧ l'.blink = l.blink := by
  induction t with
  | nil => intro l hl hk _; exact ⟨l, rfl, hl, hk, rfl, by intro a; simp, rfl, rfl, rfl⟩
  | cons b t ih =>
    intro l hl hk hr
    have hk' := hk
    simp only [sinkOk, Bool.and_eq_true] at hk
    have hadv : (Memory.advance l.ac).toNat = l.ac.toNat + 1 := by
      have : ∀ a : BitVec 7, a.toNat ≠ 0x27 → a.toNat ≠ 0x67 → a.toNat < 0x67 →
          (Memory.advance a).toNat = a.toNat + 1 := by decide +kernel
      simp at hr
      apply this <;> omega
    obtain ⟨l', h1, h2, h3, h4, h5, h6, h7, h8⟩ :=
      ih { l with ddram := Memory.write l.ddram l.ac.toNat b, ac := Memory.advance l.ac } hl
        (by have := data_ok (b := b) hk'; simpa [Lcd.data, hk.2] using this) (by simp at hr ⊢; rw [hadv]; omega)
    refine ⟨l', ?_, h2, h3, ?_, ?_, h6, h7, h8⟩
    · rw [← h1]
      simp only [streamSink, List.map_cons, List.foldl_cons, sentSink]
      rw [byteSink_aligned hc _ _ hl]
      simp [Lcd.byte, Lcd.data, hk.2]
    · rw [h4]; simp [hadv]; omega
    · intro a
      rw [h5]
      simp only [hadv, read_write hk.1, List.length_cons]
      by_cases ha : l.ac.toNat = a
      · subst ha; simp
      · simp only [ha, if_false]
        by_cases h9 : l.ac.toNat + 1 ≤ a ∧ a < l.ac.toNat + 1 + t.length
        · rw [if_pos h9, if_pos (by omega)]
          have : a - l.ac.toNat = (a - (l.ac.toNat + 1)) + 1 := by omega
          rw [this]; simp
        · rw [if_neg h9, if_neg (by omega)]

/-- An address-set byte moves the write address (R62). -/
theorem sentSink_address {c : Config} (hc : c.rsCommand ≠ c.rsData) {l : Lcd} (hl : l.half = none) {b : Byte}
    {a : BitVec 7} (hb : b.extractLsb' 7 1 = 1#1) (ha : b.extractLsb' 0 7 = a) (hcell : Memory.isCell a.toNat = true) :
    sentSink c (some l) (.instr b) = some { l with ac := a } := by
  simp only [sentSink]; rw [byteSink_aligned hc _ _ hl]; simp [Lcd.byte, Lcd.instruction, hb, ha, hcell]

end Sys2Proof.Laws
end

