-- ==== Sys2Proof/Laws/Streams.lean ====
section
/-! SUPPORT. The derived streams of frames, bytes and appended traces: latches, lines, least time, gaps, counts. -/

namespace Sys2Proof.Laws

open Sys2Proof.Machine

/-- What a state has beyond an earlier one, read off its trace. -/
theorem newEvents_of {s t : State} {es : List Event} (h : t.trace = s.trace ++ es) : s.newEvents t = es := by
  simp [State.newEvents, h]

theorem latchStream_append (p : Pins) (xs ys : List Event) :
    latchStream p (xs ++ ys) = latchStream p xs ++ latchStream (pinsAfter p xs) ys := by
  induction xs generalizing p with
  | nil => rfl
  | cons x xs ih =>
    cases x <;> simp [latchStream, pinsAfter, ih]
    split <;> simp

/-- A frame is one latch, whatever the lines were (R110). -/
theorem latchStream_frame (c : Config) (p : Pins) (rs : Bool) (n : Nibble) :
    latchStream p (frameEvents c rs n) = [{ rs := rs, n := n }] := by
  have h := framePins_nibble rs n
  simp [frameEvents, latchStream, framePins, Pins.nibble] at h ⊢
  exact h

theorem pinsAfter_frame (c : Config) (p : Pins) (rs : Bool) (n : Nibble) :
    pinsAfter p (frameEvents c rs n) = framePins rs n := rfl

/-- A byte is two latches in one mode, high nibble first (R88). -/
theorem latchStream_byte (c : Config) (p : Pins) (m : Mode) (b : Byte) :
    latchStream p (byteEvents c m b) =
      [{ rs := rsLevel c m, n := b.extractLsb' 4 4 }, { rs := rsLevel c m, n := b.extractLsb' 0 4 }] := by
  simp [byteEvents, latchStream_append, latchStream_frame]

theorem leastTime_append (xs ys : List Event) : leastTime (xs ++ ys) = leastTime xs + leastTime ys := by
  induction xs with
  | nil => simp [leastTime]
  | cons x xs ih => cases x <;> simp [leastTime, ih, Nat.add_assoc]

theorem leastTime_frame (c : Config) (rs : Bool) (n : Nibble) : leastTime (frameEvents c rs n) = tNib c := by
  simp [frameEvents, leastTime, tNib]; omega

theorem leastTime_byte (c : Config) (m : Mode) (b : Byte) : leastTime (byteEvents c m b) = 2 * tNib c := by
  simp only [byteEvents, leastTime_append, leastTime_frame]; omega

@[simp] theorem frameEvents_length (c : Config) (rs : Bool) (n : Nibble) : (frameEvents c rs n).length = 11 := rfl
@[simp] theorem frameEvents_pins (c : Config) (rs : Bool) (n : Nibble) :
    (frameEvents c rs n).countP Event.isPin = 7 := rfl
@[simp] theorem frameEvents_falls (c : Config) (rs : Bool) (n : Nibble) :
    (frameEvents c rs n).count (.pin .E false) = 1 := by simp [frameEvents]

/-- The writes of a frame are those of its latch (R110, R111). -/
theorem frameEvents_writes (c : Config) (rs : Bool) (n : Nibble) :
    (frameEvents c rs n).filter Event.isPin = frameWrites { rs := rs, n := n } := by
  simp [frameEvents, frameWrites, Event.isPin, List.filter_cons]

/-- The gaps before the falling edges of a frame and what follows it (R114). -/
theorem fallGaps_frame (c : Config) (rs : Bool) (n : Nibble) (e : Bool) (a : Nat) (es : List Event) :
    fallGaps e a (frameEvents c rs n ++ es) =
      (a + c.tRecovery + c.tSetup + c.tPulse) :: fallGaps false c.tHold es := by
  simp [frameEvents, fallGaps]

/-- The event is a pin change or a delay: all that a transfer leaves. -/
def isWave : Event → Bool
  | .pin _ _ => true
  | .delay _ => true
  | .diag _ => false
  | .done _ _ => false
  | .reset => false

theorem frameEvents_wave (c : Config) (rs : Bool) (n : Nibble) : (frameEvents c rs n).all isWave = true := by
  simp [frameEvents, isWave]

theorem streamEvents_wave (c : Config) (xs : List Sent) : (streamEvents c xs).all isWave = true := by
  induction xs with
  | nil => rfl
  | cons x xs ih =>
    simp only [streamEvents, List.flatMap_cons, List.all_append, Bool.and_eq_true] at ih ⊢
    refine ⟨?_, ih⟩
    cases x <;> simp only [sentEvents, byteEvents, List.all_append, frameEvents_wave, Bool.and_self]

/-- Two traces that time the same pins from any start do so behind any beginning. -/
theorem timedPins_append (acc : Nat) (pre es es' : List Event) (h : ∀ acc, timedPins acc es = timedPins acc es') :
    timedPins acc (pre ++ es) = timedPins acc (pre ++ es') := by
  induction pre generalizing acc with
  | nil => exact h acc
  | cons x xs ih => cases x <;> simp [timedPins, ih]

theorem pinSince_append (b : Bool) (xs ys : List Event) : pinSince b (xs ++ ys) = pinSince (pinSince b xs) ys := by
  induction xs generalizing b with
  | nil => rfl
  | cons x xs ih => cases x <;> exact ih _

/-- The diagnostic of a normalised line and nothing else (R150). -/
theorem performAll_normDiag (l : Word) (s : State) : performAll (normDiag l) s = { s with
    diag := { s.diag with lineNormalised := s.diag.lineNormalised || !(l == 1#32 || l == 2#32) }
    trace := s.trace ++ (if !(l == 1#32 || l == 2#32) then [.diag .LINE_NORMALISED] else []) } := by
  unfold normDiag lineInRange
  cases h : (l == 1#32 || l == 2#32)
  · simp [perform, Diag.raise]
  · simp

/-- The forced terminator (R162). -/
theorem textRead_terminate (t : Vector Byte 50) (j : Nat) :
    textRead (terminate t) j = if j = 49 then 0#8 else textRead t j := by
  unfold textRead terminate
  by_cases h : j = 49
  · subst h; simp [List.getD_eq_getElem?_getD]
  · simp [List.getD_eq_getElem?_getD, h, Ne.symm h]

/-- No 0x00 is part of a text (R162). -/
theorem textOf_ne_zero (t : Vector Byte 50) : ∀ b ∈ textOf t, b ≠ 0#8 := by
  intro b hb
  have := List.all_eq_true.1 (List.all_takeWhile (p := fun b : Byte => b != 0#8) (l := t.toList)) b hb
  simpa using this

/-- What can be seen of two states stays the same under the same primitives (R27 to R29, R31). -/
theorem performAll_seen (as : List Act) (s u : State) (hc : s.cfg = u.cfg) (h : s.seen = u.seen) :
    (performAll as s).seen = (performAll as u).seen := by
  induction as generalizing s u with
  | nil => exact h
  | cons a as ih =>
    apply ih
    · simpa using hc
    · simp only [State.seen, Prod.mk.injEq] at h ⊢
      obtain ⟨h1, h2, h3, h4, h5, h6, h7⟩ := h
      cases a <;> simp [perform, pinWrite, *]

/-- The driver reads nothing of the sink. -/
theorem performAll_withSink (as : List Act) (s : State) (k : Option Lcd) :
    ∃ k', performAll as { s with sink := k } = { performAll as s with sink := k' } := by
  induction as generalizing s k with
  | nil => exact ⟨k, rfl⟩
  | cons a as ih =>
    have : ∃ k', perform a { s with sink := k } = { perform a s with sink := k' } := by
      cases a <;> exact ⟨_, rfl⟩
    obtain ⟨k', e⟩ := this
    rw [performAll_cons, performAll_cons, e]
    exact ih _ _

end Sys2Proof.Laws
end

