-- ==== Sys2Proof/Tests/Slice0.lean ====
section
/-! SUPPORT. Tests. Expected values are those of 95_test_vectors.md (the vector's id stands at each) or of the rule cited;
none is taken from the model. Then a witness for the hypotheses of every statement that has some. -/

namespace Sys2Proof.Tests

open Sys2Proof Sys2Proof.Machine

/-! ### Small states -/

/-- The bytes of a text given as numbers. -/
def bytes (xs : List Nat) : List Byte := xs.map (BitVec.ofNat 8)

/-- A driver in `READY` with a known LCD: what a completed INIT leaves (R141, R65), no trace. -/
def ready : State :=
  { State.reset with lifecycle := .READY, pins := ⟨false, false, true, true, true, true⟩, sink := some Lcd.afterInit }

/-- The same with a text present in the request registers, and a line and an offset. -/
def readyWith (t : List Nat) (line offset : Nat) : State :=
  { ready with text := textBuffer (bytes t), textPresent := true, line := BitVec.ofNat 32 line,
               offset := BitVec.ofNat 32 offset }

/-- The driver after a failed INIT (R136). -/
def failed : State := { State.reset with lifecycle := .FAILED, status := .SETUP_FAILED }

/-- A driver that may run INIT (R137). -/
def uninit : State := { State.reset with setupOk := true }

/-- The state an instruction leaves. -/
def after (i : Instr) (s : State) : State :=
  match exec i s with
  | .next t => t
  | .fault _ => s
  | .refused _ => s

/-- The state a step leaves. -/
def stepped (s : State) : State :=
  match step s with
  | .next t => t
  | .fault _ => s
  | .refused _ => s

/-- What a request added, the lines at the start being `ready`'s: bytes, status, diagnostic bits, whether the lifecycle is
`READY`. -/
def outcome (i : Instr) (s : State) : Option (List Sent) × Status × BitVec 2 × Bool :=
  (byteStream s.cfg s.pins (s.newEvents (after i s)), (after i s).status, (after i s).diag.code,
   decide ((after i s).lifecycle = .READY))

/-! ### Well-formed terms -/

theorem test_wellFormed_refuses_command_codes :
    (Instr.cmdUnsupported 0x30#8).wellFormed = false ∧ (Instr.cmdUnsupported 0x31#8).wellFormed = false
    ∧ (Instr.cmdUnsupported 0x32#8).wellFormed = false ∧ (Instr.cmdUnsupported 0x33#8).wellFormed = false
    ∧ (Instr.cmdUnsupported 0x34#8).wellFormed = false ∧ (Instr.cmdUnsupported 0x35#8).wellFormed = false := by decide

theorem test_wellFormed_takes_the_neighbours :
    (Instr.cmdUnsupported 0x2F#8).wellFormed = true ∧ (Instr.cmdUnsupported 0x36#8).wellFormed = true := by decide

/-! ### Decoding: each constructor from a word written out from R81, R83, R84, R87 and R89 -/

theorem test_decode_init : decode (.req10 0b0010101011#10) = .ok (.init 0b10101011#8) := by decide
theorem test_decode_clear : decode (.req10 0b0100110000#10) = .ok .clear := by decide
theorem test_decode_printLine1 : decode (.req10 0b0100110001#10) = .ok .printLine1 := by decide
theorem test_decode_printLine2 : decode (.req10 0b0100110010#10) = .ok .printLine2 := by decide
theorem test_decode_printAt : decode (.req10 0b0100110011#10) = .ok .printAt := by decide
theorem test_decode_cursorOn : decode (.req10 0b0100110100#10) = .ok .cursorOn := by decide
theorem test_decode_cursorOff : decode (.req10 0b0100110101#10) = .ok .cursorOff := by decide
theorem test_decode_write : decode (.req10 0b1001111110#10) = .ok (.write 0b01111110#8) := by decide
theorem test_decode_cmdUnsupported : decode (.req10 0b0100000000#10) = .ok (.cmdUnsupported 0#8) := by decide
theorem test_decode_req3 : decode (.req10 0b1100110000#10) = .ok (.req3 0b00110000#8) := by decide
theorem test_decode_lcdClear : decode (.lcd8 0b00000001#8) = .ok .lcdClear := by decide
theorem test_decode_lcdEntryMode : decode (.lcd8 0b00000101#8) = .ok (.lcdEntryMode false true) := by decide
theorem test_decode_lcdDisplayControl : decode (.lcd8 0b00001101#8) = .ok (.lcdDisplayControl true false true) := by
  decide
theorem test_decode_lcdFunctionSet : decode (.lcd8 0b00110100#8) = .ok (.lcdFunctionSet true false true) := by decide
theorem test_decode_lcdAddressSet : decode (.lcd8 0b11001110#8) = .ok (.lcdAddressSet 0b1001110#7) := by decide
theorem test_decode_frame : decode (.frame5 0b10011#5) = .ok (.frame true 0b0011#4) := by decide

/-- Bytes of no row, among them return-home and a shift (R62, R90). -/
theorem test_decode_rejects_by_name :
    decode (.lcd8 0x02#8) = .error .noLcdPattern ∧ decode (.lcd8 0x10#8) = .error .noLcdPattern
    ∧ decode (.lcd8 0x22#8) = .error .noLcdPattern ∧ decode (.lcd8 0x40#8) = .error .noLcdPattern := by decide

/-- Table words (log entry 6): a request, an LCD byte, a frame told by its width, and one told by its value. -/
theorem test_table_words :
    decodeTableWord 16 0x135 = some .cursorOff ∧ decodeTableWord 8 0x28 = some (.lcdFunctionSet false true false)
    ∧ decodeTableWord 5 0x1A = some (.frame true 0xA#4) ∧ decodeTableWord 8 0 = some (.frame false 0#4)
    ∧ decodeTableWord 16 0x400 = none ∧ decodeTableWord 8 0x40 = none := by decide

/-! ### The transfers -/

/-- V1. -/
theorem test_frame_V1 : (after (.frame false 0x3#4) State.reset).trace =
    [.delay 2000000, .pin .D7 false, .pin .D6 false, .pin .D5 true, .pin .D4 true, .pin .RS false, .delay 5000,
     .pin .E true, .delay 5000, .pin .E false, .delay 0] := by decide

/-- V4: a reversed bit order would show. -/
theorem test_frame_V4 : (after (.frame true 0xA#4) State.reset).pins = ⟨true, false, false, true, false, true⟩
    ∧ latchStream Pins.low (after (.frame true 0xA#4) State.reset).trace = [⟨true, 0xA#4⟩] := by decide

/-- V5. -/
theorem test_lcdAddressSet_V5 :
    latchStream Pins.low (after (.lcdAddressSet 0x45#7) State.reset).trace = [⟨false, 0xC#4⟩, ⟨false, 0x5#4⟩] := by decide

/-- V9. -/
theorem test_lcdFunctionSet_V9 :
    latchStream Pins.low (after (.lcdFunctionSet false true false) State.reset).trace
      = [⟨false, 0x2#4⟩, ⟨false, 0x8#4⟩] := by decide

/-- V10, step 7. -/
theorem test_lcdClear_V10 :
    latchStream Pins.low (after .lcdClear State.reset).trace = [⟨false, 0x0#4⟩, ⟨false, 0x1#4⟩] := by decide

/-- V10, step 8. -/
theorem test_lcdEntryMode_V10 :
    latchStream Pins.low (after (.lcdEntryMode true false) State.reset).trace = [⟨false, 0x0#4⟩, ⟨false, 0x6#4⟩] := by decide

/-- V10, step 9. -/
theorem test_lcdDisplayControl_V10 :
    latchStream Pins.low (after (.lcdDisplayControl true true true) State.reset).trace
      = [⟨false, 0x0#4⟩, ⟨false, 0xF#4⟩] := by decide

/-- V6. -/
theorem test_sendCharacter_V6 :
    latchStream Pins.low (performAll (sendCharacter Config.default 0x68#8) State.reset).trace
      = [⟨true, 0x6#4⟩, ⟨true, 0x8#4⟩] := by decide

/-- V28e to V28j and V27: truncation to eight bits, and a line compared on 32 bits. -/
theorem test_setPosition_V28 :
    addressByte (norm 1) 128 = 0x00#8 ∧ addressByte (norm 2) 63 = 0xFF#8 ∧ addressByte (norm 2) 64 = 0x00#8
    ∧ addressByte (norm 2) 65 = 0x01#8 ∧ addressByte (norm 1) 261 = 0x85#8
    ∧ addressByte (norm 2) 0xFFFFFFFF = 0xBF#8 ∧ addressByte (norm 0x101) 2 = 0x82#8
    ∧ addressByte (norm 0xFFFFFFFF) 15 = 0x8F#8 ∧ addressByte (norm 0) 5 = 0x85#8 := by decide

/-! ### The requests -/

/-- V10 and V14: the latch stream, the code ignored. -/
theorem test_init_V10 :
    (latchStream Pins.low (after (.init 0xAB#8) uninit).trace).map (fun x => x.n.toNat)
      = [3, 3, 3, 2, 2, 8, 0, 8, 0, 1, 0, 6, 0, 15]
    ∧ leastTime (after (.init 0xAB#8) uninit).trace = 73040000
    ∧ (after (.init 0xAB#8) uninit).lifecycle = .READY := by decide +kernel

/-- V12. -/
theorem test_init_V12 :
    (after (.init 0#8) State.reset).trace = [.done .SETUP_FAILED Diag.clear]
    ∧ (after (.init 0#8) State.reset).lifecycle = .FAILED := by decide

/-- V50. -/
theorem test_clear_V50 : outcome .clear ready = (some [.instr 0x01#8], .OK, 0b00#2, true) := by decide +kernel

/-- V72. -/
theorem test_clear_V72 : (after .clear failed).trace = [.done .BAD_STATE Diag.clear] := by decide

/-- V49a: 0x0A and 0xFF go as they are. -/
theorem test_printLine1_V49a : outcome .printLine1 (readyWith [0x61, 0x0A, 0x62, 0xFF] 77 99) =
    (some [.instr 0x80#8, .char 0x61#8, .char 0x0A#8, .char 0x62#8, .char 0xFF#8], .OK, 0b00#2, true) := by decide +kernel

/-- V32: seventeen characters wrap. -/
theorem test_printLine1_V32 :
    (outcome .printLine1 (readyWith (List.range' 0x41 17) 1 0)).1 =
      some (.instr 0x80#8 :: (bytes (List.range' 0x41 16)).map Sent.char ++ [.instr 0xC0#8, .char 0x51#8]) := by
  decide +kernel

/-- V35: line 2 truncates at sixteen and sends nothing more. -/
theorem test_printLine2_V35 :
    outcome .printLine2 (readyWith (List.range' 0x41 20) 1 0) =
      (some (.instr 0xC0#8 :: (bytes (List.range' 0x41 16)).map Sent.char), .OK, 0b00#2, true) := by decide +kernel

/-- V44. -/
theorem test_printLine2_V44 : (after .printLine2 ready).trace =
    [.diag .NULL_TEXT, .done .OK ⟨false, true⟩] := by decide

/-- V38: offset 16 on line 1 wraps at once. -/
theorem test_printAt_V38 : outcome .printAt (readyWith [0x41, 0x42] 1 16) =
    (some [.instr 0x90#8, .instr 0xC0#8, .char 0x41#8, .char 0x42#8], .OK, 0b00#2, true) := by decide +kernel

/-- V45: line 7 becomes 1, with one diagnostic first. -/
theorem test_printAt_V45 : outcome .printAt (readyWith [0x41] 7 3) =
    (some [.instr 0x83#8, .char 0x41#8], .OK, 0b01#2, true)
    ∧ (after .printAt (readyWith [0x41] 7 3)).trace.head? = some (.diag .LINE_NORMALISED) := by decide +kernel

/-- V54. -/
theorem test_cursorOn_V54 : outcome .cursorOn ready = (some [.instr 0x0F#8], .OK, 0b00#2, true) := by decide +kernel

/-- V55. -/
theorem test_cursorOff_V55 : outcome .cursorOff ready = (some [.instr 0x0C#8], .OK, 0b00#2, true) := by decide +kernel

/-- V57 and V59: an empty text, `text_present` ignored. -/
theorem test_write_V57 : outcome (.write 0x7E#8) ready = (some [.instr 0x01#8, .instr 0x80#8], .OK, 0b00#2, true) := by
  decide +kernel

/-- V66. -/
theorem test_write_V66 : (after (.write 0#8) State.reset).trace = [.done .BAD_STATE Diag.clear] := by decide

/-- V60. -/
theorem test_cmdUnsupported_V60 : (after (.cmdUnsupported 0x36#8) ready).trace = [.done .UNSUPPORTED Diag.clear]
    ∧ (after (.cmdUnsupported 0x36#8) ready).pins = ready.pins := by decide

/-- V67: lifecycle before legality. -/
theorem test_cmdUnsupported_V67 : (after (.cmdUnsupported 0x99#8) State.reset).trace = [.done .BAD_STATE Diag.clear] := by
  decide

/-- V64. -/
theorem test_req3_V64 : (after (.req3 0x30#8) ready).trace = [.done .UNSUPPORTED Diag.clear] := by decide

/-- V68. -/
theorem test_req3_V68 : (after (.req3 0#8) State.reset).trace = [.done .BAD_STATE Diag.clear] := by decide

/-! ### The step, acceptance and reset -/

/-- V48: fifty non-zero bytes; `text[49]` is forced to 0x00 (R162), so `L = 49`. -/
theorem test_accept_V48 :
    (textOf (accept (Request.printLine1 (some (List.replicate 50 0x41#8))) ready).text).length = 49 := by decide +kernel

/-- V65 through the request channel: the step after reset that is asked CLEAR. -/
theorem test_step_V65 : (stepped { State.reset with inputs := [.ask .clear] }).trace = [.done .BAD_STATE Diag.clear]
    ∧ (stepped { State.reset with inputs := [.ask .clear] }).busy = false := by decide

/-- The driver with CURSOR_ON held after its 19th event (V81). -/
def held : State := stepped { ready with inputs := [.request Request.cursorOn (some 19), .reset] }

/-- V81: E is high in the second frame and one latch has gone. -/
theorem test_held_V81 : held.busy = true ∧ held.trace.length = 19 ∧ held.pins.e = true
    ∧ latchStream ready.pins held.trace = [⟨false, 0x0#4⟩] := by decide +kernel

/-- V81: reset drives the lines low, with no `Done`, and the LCD is no longer known (R233). -/
theorem test_reset_V81 : (stepped held).pins = Pins.low ∧ (stepped held).trace.getLast? = some .reset
    ∧ (stepped held).trace.length = 20 ∧ (stepped held).lifecycle = .UNINIT ∧ (stepped held).sink = none := by decide +kernel

/-- The response ports after V64: `req_ready`, `rsp_done`, `rsp_status`, `rsp_diag` (R80, R91). -/
theorem test_response_V64 : (after (.req3 0#8) ready).reqReady = true ∧ (after (.req3 0#8) ready).rspDone = true
    ∧ (after (.req3 0#8) ready).rspStatus = 1#3 ∧ (after (.req3 0#8) ready).rspDiag = 0#2 := by decide

/-- R63: the write address after the last cell of each row. -/
theorem test_advance : Memory.advance 0x27#7 = 0x40#7 ∧ Memory.advance 0x67#7 = 0x00#7 ∧ Memory.advance 0x0F#7 = 0x10#7 := by
  decide

/-- R62: what is no cell, and bytes that lose track. -/
theorem test_lcd_loses_track : Lcd.afterInit.instruction 0xA8#8 = none ∧ Lcd.afterInit.instruction 0xE8#8 = none
    ∧ Lcd.afterInit.instruction 0x02#8 = none ∧ Lcd.afterInit.instruction 0x07#8 = none
    ∧ Lcd.afterInit.instruction 0x38#8 = none ∧ Lcd.afterInit.instruction 0x40#8 = none
    ∧ Lcd.afterInit.instruction 0x00#8 = none := by decide

/-- P1's last request: the display shows "hi" and line 2 is blank (S7). -/
theorem test_display_P1 :
    ((after .printLine1 (readyWith [0x68, 0x69] 1 0)).sink.map (fun l => (l.shown .one 0, l.shown .one 1, l.shown .one 2,
      l.shown .two 0, l.ac))) = some (some 0x68#8, some 0x69#8, some 0x20#8, some 0x20#8, 2#7) := by decide +kernel

/-! ### Witnesses: for each statement with hypotheses, values that meet all of them -/

theorem test_witness_O2 : (Instr.cmdUnsupported 0x36#8).wellFormed = true := by decide

theorem test_witness_O3 : decode (.lcd8 0x28#8) = .ok (.lcdFunctionSet false true false) := by decide

theorem test_witness_O4 : commandCodes.contains 0x2F#8 = false ∧ commandCodes.contains 0x36#8 = false := by decide

theorem test_witness_O5 :
    ({ ready with inputs := [.ask .clear] } : State).busy = false
    ∧ ({ ready with inputs := [.ask .clear] } : State).inputs = .request .clear none :: []
    ∧ ({ ready with inputs := [.byte 0x28#8] } : State).inputs = .byte 0x28#8 :: []
    ∧ decode (.lcd8 0x28#8) = .ok (.lcdFunctionSet false true false)
    ∧ ({ ready with inputs := [.frame 0x1A#5] } : State).inputs = .frame 0x1A#5 :: []
    ∧ decode (.frame5 0x1A#5) = .ok (.frame true 0xA#4) ∧ ready.busy = false ∧ ready.inputs = [] := by decide

theorem test_witness_O6 : decodeTableWord 16 0x133 = some .printAt ∧ decodeTableWord 8 0x0F = some (.lcdDisplayControl true true true)
    ∧ decodeTableWord 5 0x1F = some (.frame true 0xF#4) := by decide

/-- A driver in the middle of CURSOR_ON that has another request waiting. -/
def waiting : State := stepped { ready with inputs := [.request Request.cursorOn (some 3), .ask .clear] }

theorem test_witness_O8 : waiting.busy = true ∧ waiting.undisturbed = true ∧ step waiting = .next (stepped waiting) := by
  refine ⟨by decide +kernel, by decide +kernel, rfl⟩

theorem test_witness_O9 : step { ready with inputs := [.reset] } = .next (stepped { ready with inputs := [.reset] }) := rfl

theorem test_witness_O10 : ready.inv = true ∧ ({ ready with inputs := [.otherAgent] } : State).inv = true := by decide +kernel

/-- O16: tracked, aligned; its last clause at the edges of both rows of cells. -/
theorem test_witness_O16 : ready.cfg.rsCommand ≠ ready.cfg.rsData ∧ ready.sink = some Lcd.afterInit
    ∧ Lcd.afterInit.half = none ∧ Memory.isCell 0x27 = true ∧ Memory.isCell 0x28 = false ∧ Memory.isCell 0x3F = false
    ∧ Memory.isCell 0x40 = true ∧ Memory.isCell 0x67 = true ∧ Memory.isCell 0x68 = false := by decide

/-- The LCD of `ready` with its write address at `a`. -/
def lcdAt (a : BitVec 7) : Lcd := { Lcd.afterInit with ac := a }

theorem test_witness_O17 :
    ({ ready with sink := some (lcdAt 0x27#7) } : State).sink = some (lcdAt 0x27#7) ∧ sinkOk (some (lcdAt 0x27#7)) = true
    ∧ sinkOk (some (lcdAt 0x67#7)) = true ∧ sinkOk (some (lcdAt 0x00#7)) = true ∧ (lcdAt 0x67#7).half = none
    ∧ ready.cfg.rsCommand ≠ ready.cfg.rsData := by decide

theorem test_witness_O18 : Memory.wf [(0x0F, 0x41#8), (0x40, 0x42#8)] = true ∧ Memory.isCell 0x67 = true := by decide

theorem test_witness_O19 : ∀ a ∈ sendByte Config.default .DATA 0x68#8, a ≠ Act.ghostReady := by decide

theorem test_witness_O21 : isInitRow .printAt = false ∧ (readyWith [0x41] 1 0).lifecycle = .READY
    ∧ ({ readyWith [0x41] 1 0 with sink := none } : State).sink = none := by decide

/-- INIT held after its last event before `Done`, and the LCD lost there. -/
def losing : State := stepped { State.reset with inputs := [.request (.init true) (some 164), .lcdLost] }

/-- O21, its clauses on steps; and that this INIT ends `READY` with the LCD unknown (log entry 7). -/
theorem test_witness_O21_lost : losing.inputs = .lcdLost :: [] ∧ losing.pending.contains .ghostReady = true
    ∧ (stepped losing).undisturbed = true ∧ (stepped losing).busy = true
    ∧ (stepped losing).pending.contains .ghostReady = false ∧ (stepped losing).sink = none
    ∧ step (stepped losing) = .next (stepped (stepped losing)) := by
  refine ⟨by decide +kernel, by decide +kernel, by decide +kernel, by decide +kernel, by decide +kernel, by decide +kernel, rfl⟩

theorem test_lost_during_init : (stepped (stepped losing)).lifecycle = .READY ∧ (stepped (stepped losing)).sink = none
    ∧ (stepped { losing with inputs := [] }).sink = some Lcd.afterInit := by decide +kernel

theorem test_witness_O22_O24 : uninit.lifecycle = .UNINIT ∧ uninit.setupOk = true
    ∧ uninit.cfg.wakeFraming = .NIBBLE ∧ uninit.cfg = Config.default
    ∧ ({ uninit with cfg := { Config.default with wakeFraming := .BYTE } } : State).cfg.wakeFraming = .BYTE := by decide

theorem test_witness_O23 : State.reset.lifecycle = .UNINIT ∧ State.reset.setupOk = false
    ∧ failed.lifecycle = .FAILED := by decide

/-- O23, its last clause. -/
theorem test_witness_O23_reset : ({ failed with inputs := [.reset] } : State).inv = true
    ∧ step { failed with inputs := [.reset] } = .next (stepped { failed with inputs := [.reset] })
    ∧ (stepped { failed with inputs := [.reset] }).lifecycle ≠ .FAILED := by
  refine ⟨by decide +kernel, rfl, by decide +kernel⟩

theorem test_witness_O25 : uninit.lifecycle = .UNINIT ∧ uninit.setupOk = true ∧ uninit.cfg.wakeFraming = .NIBBLE
    ∧ uninit.cfg.initBytesStandard = true ∧ uninit.cfg.meetsLcd = true := by decide

theorem test_witness_O26 : ready.lifecycle = .READY ∧ ready.cfg.bClear = 0x01#8 ∧ ready.cfg.bCursorOn = 0x0F#8
    ∧ ready.cfg.bCursorOff = 0x0C#8 := by decide

theorem test_witness_O27 : ready.lifecycle = .READY ∧ ready.cfg.rsCommand ≠ ready.cfg.rsData
    ∧ ready.cfg.bClear = 0x01#8 ∧ ready.cfg.bCursorOn = 0x0F#8 ∧ ready.cfg.bCursorOff = 0x0C#8
    ∧ ready.sink = some Lcd.afterInit ∧ Lcd.afterInit.half = none := by decide

/-- O28, O32: a text present, line 1, line 2, a line out of range, offsets at and around 16. -/
theorem test_witness_O28_O32 :
    (readyWith [0x41] 1 15).lifecycle = .READY ∧ (readyWith [0x41] 1 15).textPresent = true
    ∧ (readyWith [0x41] 2 16).lifecycle = .READY ∧ (readyWith [0x41] 2 16).textPresent = true
    ∧ (readyWith [0x41] 0 65).lifecycle = .READY ∧ (readyWith [0x41] 0 65).textPresent = true := by decide

theorem test_witness_O29 : (readyWith [0x41] 1 0).lifecycle = .READY := by decide

theorem test_witness_O30 : ready.lifecycle = .READY ∧ ready.textPresent = false := by decide

theorem test_witness_O31 : ready.lifecycle = .READY ∧ (∃ c, Instr.cmdUnsupported 0x36#8 = .cmdUnsupported c)
    ∧ ∃ c, Instr.req3 0x30#8 = .req3 c := ⟨rfl, ⟨_, rfl⟩, ⟨_, rfl⟩⟩

/-- O31, its second clause: the codes next to the legal ones and the reserved kind (V60, V61, V64). -/
theorem test_witness_O31_words :
    (Request.cmd 0x2F#8).kind = 1#2 ∧ ((Request.cmd 0x2F#8).code < 0x30#8 ∨ 0x35#8 < (Request.cmd 0x2F#8).code)
    ∧ (Request.cmd 0x36#8).kind = 1#2 ∧ ((Request.cmd 0x36#8).code < 0x30#8 ∨ 0x35#8 < (Request.cmd 0x36#8).code)
    ∧ Request.req3.kind = 3#2 := by decide

theorem test_witness_O33 : (readyWith [0x68, 0x69] 9 99).lifecycle = .READY
    ∧ (readyWith [0x68, 0x69] 9 99).textPresent = true := by decide

/-- O34: lines 0, 3, 0x101 and 0xFFFFFFFF (V24 to V27). -/
theorem test_witness_O34 :
    (Request.printAt 0#32 5#32 (some [0x41#8])).textPresent = true ∧ ready.lifecycle = .READY
    ∧ (Request.printAt 0#32 5#32 (some [0x41#8])).line ≠ 1#32 ∧ (Request.printAt 0#32 5#32 (some [0x41#8])).line ≠ 2#32
    ∧ (Request.printAt 3#32 0#32 (some [0x41#8])).line ≠ 2#32 ∧ (0x101#32 : Word) ≠ 1#32
    ∧ (0xFFFFFFFF#32 : Word) ≠ 1#32 := by decide

/-- O36: a request its lifecycle does not admit and one it admits, in each lifecycle that has both. -/
theorem test_witness_O36 : isRequestRow .clear = true ∧ isRequestRow (.init 0#8) = true
    ∧ admitted .UNINIT .clear = false ∧ admitted .UNINIT (.init 0#8) = true ∧ admitted .READY (.init 0#8) = false
    ∧ admitted .READY .clear = true ∧ admitted .FAILED (.init 0#8) = false ∧ admitted .FAILED .clear = false := by decide

theorem test_witness_O37 : isRequestRow (.init 0#8) = true
    ∧ exec (.init 0#8) (accept (Request.init false) State.reset) = .next (after (.init 0#8) (accept (Request.init false) State.reset))
    ∧ (after (.init 0#8) (accept (Request.init false) State.reset)).status ≠ .OK
    ∧ (after (.init 0#8) (accept (Request.init false) State.reset)).status = .SETUP_FAILED
    ∧ (after (.req3 0#8) (accept Request.req3 ready)).status ≠ .OK := by
  refine ⟨rfl, rfl, by decide, by decide, by decide⟩

theorem test_witness_O38_O41_O58 : isRequestRow .printAt = true ∧ isRequestRow (.init 0#8) = true
    ∧ isRequestRow (.write 0#8) = true := by decide

/-- O39, its last clause: a text of exactly 32. -/
theorem test_witness_O39 : isRequestRow (.write 0#8) = true ∧ ready.lifecycle = .READY
    ∧ (textOf (terminate (Request.write (bytes (List.range' 0x41 32))).text)).length = 32 := by decide +kernel

theorem test_witness_O40_O59 : isRequestRow .printAt = true ∧ isInitRow .printAt = false
    ∧ ready.cfg.rsCommand ≠ ready.cfg.rsData := by decide

/-- O42: two records that differ in every field CLEAR does not read (V59b), and in those PRINT_LINE1 does not (V59c). -/
theorem test_witness_O42 : isRequestRow .clear = true
    ∧ readsAgree .clear (Request.printAt 77#32 99#32 (some [0x6A#8])) (Request.printAt 1#32 0#32 none)
    ∧ readsAgree .printLine1 (Request.printAt 77#32 99#32 (some [0x41#8])) (Request.printAt 1#32 0#32 (some [0x41#8]))
    ∧ Request.printAt 77#32 99#32 (some [0x41#8]) ≠ Request.printAt 1#32 0#32 (some [0x41#8]) :=
  ⟨rfl, trivial, ⟨rfl, rfl⟩, by decide +kernel⟩

theorem test_witness_O43 : isRequestRow .printAt = true ∧ ready.cfg = (readyWith [0x41] 7 9).cfg
    ∧ ready.seen = (readyWith [0x41] 7 9).seen ∧ ready ≠ readyWith [0x41] 7 9 :=
  ⟨rfl, rfl, rfl, fun h => by have := congrArg State.textPresent h; revert this; decide⟩

/-- O44, O48: the invariant in a driver that has a request to take, in one that runs one, and in one that is being reset. -/
theorem test_witness_O44_O48 :
    ({ uninit with inputs := [.ask (.init true)] } : State).inv = true
    ∧ waiting.inv = true ∧ step waiting = .next (stepped waiting)
    ∧ held.inv = true ∧ held.inputs = .reset :: [] ∧ step held = .next (stepped held) := by
  refine ⟨by decide +kernel, by decide +kernel, rfl, by decide +kernel, by decide +kernel, rfl⟩

/-- O48, its two clauses on INIT: one presented, and one that is running and about to end. -/
theorem test_witness_O48_init :
    ({ uninit with inputs := [.ask (.init false)] } : State).inv = true
    ∧ (stepped { uninit with inputs := [.ask (.init false)] }).lifecycle = .FAILED
    ∧ ({ losing with inputs := [] } : State).inv = true ∧ losing.lifecycle = .UNINIT ∧ losing.kind = 0#2
    ∧ (stepped { losing with inputs := [] }).lifecycle = .READY := by decide +kernel

/-- A driver inside INIT, after its 20th event. -/
def starting : State := stepped { State.reset with inputs := [.request (.init true) (some 20), .ask .clear] }

theorem test_witness_O46 : starting.quietInv = true ∧ starting.lifecycle = .UNINIT ∧ pinSinceReset starting.trace = true
    ∧ step starting = .next (stepped starting) := by
  refine ⟨by decide +kernel, by decide +kernel, by decide +kernel, rfl⟩

theorem test_witness_O47 : failed.quietInv = true ∧ failed.lifecycle = .FAILED := by decide +kernel

theorem test_witness_O49 : held.inputs = .reset :: [] ∧ held.busy = true
    ∧ ({ ready with inputs := [.reset] } : State).inputs = .reset :: []
    ∧ ({ ready with inputs := [.reset] } : State).busy = false ∧ ready.pins.e = false := by
  refine ⟨by decide +kernel, by decide +kernel, rfl, rfl, rfl⟩

/-- O50: `k` at 0, at 19 (V81) and at the last event before `Done`. -/
theorem test_witness_O50 (k : Nat) (h : k = 0 ∨ k = 19 ∨ k = 22) :
    ({ ready with inputs := [.request Request.cursorOn (some k), .reset] } : State).busy = false
    ∧ exec (decodeReq10 (Request.cursorOn.kind ++ Request.cursorOn.code)) (accept Request.cursorOn { ready with inputs := [.reset] })
        = .next (after .cursorOn (accept Request.cursorOn { ready with inputs := [.reset] }))
    ∧ k < (ready.newEvents (after .cursorOn (accept Request.cursorOn { ready with inputs := [.reset] }))).length := by
  have hl : (ready.newEvents (after .cursorOn (accept Request.cursorOn { ready with inputs := [.reset] }))).length = 23 := by
    decide +kernel
  refine ⟨rfl, rfl, ?_⟩
  omega

/-- O51: `k` at 0 and at the number of the request's events. -/
theorem test_witness_O51 (k : Nat) (h : k = 0 ∨ k = 23) :
    ({ ready with inputs := [.request Request.cursorOn (some k)] } : State).busy = false
    ∧ ({ ready with inputs := [.request Request.cursorOn (some k)] } : State).pending = []
    ∧ ({ ready with inputs := [] } : State).undisturbed = true
    ∧ exec (decodeReq10 (Request.cursorOn.kind ++ Request.cursorOn.code)) (accept Request.cursorOn { ready with inputs := [] })
        = .next (after .cursorOn (accept Request.cursorOn { ready with inputs := [] }))
    ∧ k ≤ (ready.newEvents (after .cursorOn (accept Request.cursorOn { ready with inputs := [] }))).length := by
  have hl : (ready.newEvents (after .cursorOn (accept Request.cursorOn { ready with inputs := [] }))).length = 23 := by
    decide +kernel
  refine ⟨rfl, rfl, rfl, rfl, ?_⟩
  omega

/-- O52: offsets 0 and 15, on both lines. -/
theorem test_witness_O52 :
    (readyWith [0x41, 0x42] 1 0).lifecycle = .READY ∧ (readyWith [0x41, 0x42] 1 0).textPresent = true
    ∧ (readyWith [0x41, 0x42] 1 0).cfg.rsCommand ≠ (readyWith [0x41, 0x42] 1 0).cfg.rsData
    ∧ (readyWith [0x41, 0x42] 1 0).offset.toNat < 16 ∧ (readyWith [0x41, 0x42] 2 15).offset.toNat < 16
    ∧ (readyWith [0x41, 0x42] 2 15).sink = some Lcd.afterInit ∧ Lcd.afterInit.half = none
    ∧ sinkOk (some Lcd.afterInit) = true := by decide

theorem test_witness_O53 : ready.lifecycle = .READY ∧ ready.cfg.rsCommand ≠ ready.cfg.rsData
    ∧ ready.cfg.bClear = 0x01#8 ∧ ready.sink = some Lcd.afterInit ∧ Lcd.afterInit.half = none
    ∧ sinkOk (some Lcd.afterInit) = true ∧ (Request.printLine1 (some [0x68#8, 0x69#8])).textPresent = true := by decide

/-- O55: a request that ends with each status other than `OK`. -/
theorem test_witness_O55_refused :
    exec (.req3 0#8) ready = .next (after (.req3 0#8) ready) ∧ (after (.req3 0#8) ready).status = .UNSUPPORTED
    ∧ exec (.init 0#8) ready = .next (after (.init 0#8) ready) ∧ (after (.init 0#8) ready).status = .BAD_STATE
    ∧ exec (.init 0#8) State.reset = .next (after (.init 0#8) State.reset)
    ∧ (after (.init 0#8) State.reset).status = .SETUP_FAILED ∧ ready.cfg = Config.default :=
  ⟨rfl, by decide, rfl, by decide, rfl, by decide, rfl⟩

/-- R169's counts at the edges of a line: an empty text, one that fills it, one more, a full display, one more, and offsets of 16. -/
theorem test_renderCount : renderCount .one 0 0 = 1 ∧ renderCount .one 0 16 = 17 ∧ renderCount .one 0 17 = 19
    ∧ renderCount .one 0 32 = 34 ∧ renderCount .one 0 33 = 34 ∧ renderCount .one 10 11 = 13 ∧ renderCount .one 16 0 = 1
    ∧ renderCount .one 16 2 = 4 ∧ renderCount .two 0 20 = 17 ∧ renderCount .two 16 3 = 1 := by decide

/-- O55: texts of exactly 16 and of exactly 32 characters. -/
theorem test_witness_O55 : (readyWith (List.range' 0x41 16) 1 0).lifecycle = .READY
    ∧ (readyWith (List.range' 0x41 16) 1 0).textPresent = true
    ∧ (textOf (readyWith (List.range' 0x41 16) 1 0).text).length = 16
    ∧ (textOf (readyWith (List.range' 0x41 32) 1 0).text).length = 32 := by decide +kernel

theorem test_witness_O60 : isInitRow (.frame true 0#4) = false ∧ isInitRow .clear = false := by decide

end Sys2Proof.Tests
end

section
/-! SUPPORT. Proofs of the statements about 00_scope.md: the configuration is constant (R5, R6), delays add in the timed
waveform (R11), and the defaults are a configuration that the rules and the LCD admit (R6, R241). -/

namespace Sys2Proof.Proofs

open Sys2Proof.Machine Sys2Proof.Laws

/-! ### The configuration is written by no operation -/

@[simp] theorem applyReset_cfg (s : State) : (applyReset s).cfg = s.cfg := rfl

@[simp] theorem emitEvents_cfg (k : Nat) (as : List Act) (s : State) : (emitEvents k as s).cfg = s.cfg :=
  performAll_cfg (splitEvents k as).1 s

@[simp] theorem transmit_cfg (b : Byte) (s : State) : (transmit b s).cfg = s.cfg :=
  performAll_cfg (sendInstruction s.cfg b) s

@[simp] theorem requestState_cfg (r : Request) (hold : Option Nat) (s : State) :
    (requestState r hold s).cfg = s.cfg := by
  cases hold with
  | none => exact performAll_cfg _ (accept r s)
  | some k => exact emitEvents_cfg k _ (accept r s)

/-- Settles O9, by the cases of `step_cases`: a reset, a lost LCD, the next event of a running request, an accepted
request, a lone byte, a lone frame, and a driver that waits. -/
theorem stepKeepsTheConfiguration : Obligations.StepKeepsTheConfiguration := by
  intro s t h
  obtain ⟨rest, -, rfl⟩ | ⟨rest, -, rfl⟩ | ⟨-, -, -, rfl⟩ | ⟨r, hold, rest, -, -, rfl⟩ | ⟨b, rest, -, -, rfl⟩
    | ⟨w, rest, -, -, rfl⟩ | ⟨-, -, rfl⟩ := step_cases h
  · exact applyReset_cfg _
  · exact loseLcd_cfg _
  · exact emitEvents_cfg _ _ _
  · exact requestState_cfg _ _ _
  · exact transmit_cfg _ _
  · exact performAll_cfg _ _
  · rfl

/-! ### The timed waveform sees only sums of delays -/

/-- Two ends of a trace that time the same pins from any start, and have the same marks, are equivalent behind any
beginning. -/
theorem traceEquiv_append (pre : List Event) {es es' : List Event}
    (ht : ∀ acc, timedPins acc es = timedPins acc es')
    (hm : es.filter Event.isMark = es'.filter Event.isMark) : TraceEquiv (pre ++ es) (pre ++ es') := by
  constructor
  · rw [waveform, waveform, timedPins_append 0 pre es es' ht]
  · rw [List.filter_append, List.filter_append, hm]

theorem timedPins_delay_delay (acc a b : Nat) (es : List Event) :
    timedPins acc (.delay a :: .delay b :: es) = timedPins acc (.delay (a + b) :: es) := by
  simp only [timedPins, Nat.add_assoc]

theorem timedPins_delay_zero (acc : Nat) (es : List Event) : timedPins acc (.delay 0 :: es) = timedPins acc es := rfl

theorem leastTime_delay_delay (a b : Nat) (es : List Event) :
    leastTime (.delay a :: .delay b :: es) = leastTime (.delay (a + b) :: es) := by
  simp only [leastTime, Nat.add_assoc]

/-- Settles O54: a delay is no mark, and `timedPins` adds it to what has gone by. -/
theorem delaysAddInTheWaveform : Obligations.DelaysAddInTheWaveform := by
  intro pre post a b
  refine ⟨?_, ?_, ?_⟩
  · exact traceEquiv_append pre (fun acc => timedPins_delay_delay acc a b post) rfl
  · exact traceEquiv_append pre (fun acc => timedPins_delay_zero acc post) rfl
  · rw [leastTime_append, leastTime_append, leastTime_delay_delay]

/-! ### The defaults -/

/-- Settles O56: each check, evaluated at the default figures. -/
theorem defaultsAreAdmissible : Obligations.DefaultsAreAdmissible := by
  refine ⟨?ok, ?meetsLcd, ?initBytes⟩
  case ok => decide
  case meetsLcd => decide
  case initBytes => decide

end Sys2Proof.Proofs
end

section
/-! SUPPORT. Proofs of the statements about 10_state.md: what acceptance captures and what a step runs (R26, R27, R30),
the invariants every step keeps (R22, R26, R32), and what no result depends on (R27 to R29, R31). -/

namespace Sys2Proof.Proofs

open Sys2Proof.Machine Sys2Proof.Laws

/-! ### Acceptance -/

/-- Settles O7: every field but the text's last byte is a copy, and that byte is forced by `terminate`. -/
theorem acceptanceCapturesTheRequest : Obligations.AcceptanceCapturesTheRequest := by
  intro r s
  refine ⟨rfl, ?_, fun j hj => ?_⟩
  · rw [accept_text, textRead_terminate, if_pos rfl]
  · rw [accept_text, textRead_terminate, if_neg (Nat.ne_of_lt hj)]

/-! ### What a step runs -/

/-- With nothing from outside that cannot wait, a busy driver goes on and an idle one takes what is presented (R26). -/
theorem step_of_undisturbed {s : State} (h : s.undisturbed = true) :
    step s = if s.busy then resume s else whenIdle s := by
  cases hi : s.inputs with
  | nil => simp [step, hi]
  | cons x rest =>
    cases x with
    | reset | lcdLost | otherAgent => simp [State.undisturbed, Input.isAsync, hi] at h
    | request | byte | frame => simp [step, hi]

theorem step_of_idle {s : State} (h : s.undisturbed = true) (hb : s.busy = false) : step s = whenIdle s := by
  rw [step_of_undisturbed h, hb, if_neg Bool.false_ne_true]

theorem step_of_running {s : State} (h : s.undisturbed = true) (hb : s.busy = true) (hp : s.pending ≠ []) :
    step s = .next (emitEvents 1 s.pending s) := by
  obtain ⟨a, as, hcons⟩ := List.exists_cons_of_ne_nil hp
  rw [step_of_undisturbed h, if_pos hb, resume, hcons]

theorem undisturbed_of_inputs_nil {s : State} (h : s.inputs = []) : s.undisturbed = true := by
  rw [State.undisturbed, h]

theorem undisturbed_of_inputs_cons {s : State} {x : Input} {rest : List Input} (h : s.inputs = x :: rest)
    (hx : x.isAsync = false) : s.undisturbed = true := by
  simp [State.undisturbed, h, hx]

theorem step_of_request {s : State} {r : Request} {rest : List Input} (hb : s.busy = false)
    (hi : s.inputs = .request r none :: rest) :
    step s = exec (decodeReq10 (r.kind ++ r.code)) (accept r { s with inputs := rest }) := by
  rw [step_of_idle (undisturbed_of_inputs_cons hi rfl) hb, whenIdle, hi]
  rfl

theorem step_of_byte {s : State} {b : Byte} {i : Instr} {rest : List Input} (hb : s.busy = false)
    (hi : s.inputs = .byte b :: rest) (hd : decode (.lcd8 b) = .ok i) : step s = exec i { s with inputs := rest } := by
  rw [decode] at hd
  rw [step_of_idle (undisturbed_of_inputs_cons hi rfl) hb, whenIdle, hi]
  simp only [runByte, hd]

theorem step_of_frame {s : State} {w : BitVec 5} {i : Instr} {rest : List Input} (hb : s.busy = false)
    (hi : s.inputs = .frame w :: rest) (hd : decode (.frame5 w) = .ok i) :
    step s = exec i { s with inputs := rest } := by
  obtain rfl : decodeFrame5 w = i := Except.ok.inj hd
  rw [step_of_idle (undisturbed_of_inputs_cons hi rfl) hb, whenIdle, hi]
  rfl

theorem step_of_nothing {s : State} (hb : s.busy = false) (hi : s.inputs = []) : step s = .next s := by
  rw [step_of_idle (undisturbed_of_inputs_nil hi) hb, whenIdle, hi]

/-- Settles O5: one equation of the step for each kind of thing presented. -/
theorem stepRunsThePresentedInstruction : Obligations.StepRunsThePresentedInstruction :=
  ⟨fun _ _ _ hb hi => step_of_request hb hi, fun _ _ _ _ hb hi hd => step_of_byte hb hi hd,
    fun _ _ _ _ hb hi hd => step_of_frame hb hi hd, fun _ hb hi => step_of_nothing hb hi⟩

/-- A table word that decodes has a format, in which it decodes. -/
theorem decodeTableWord_eq_some {nbits w : Nat} {i : Instr} (h : decodeTableWord nbits w = some i) :
    ∃ e, classify nbits w = .ok e ∧ decode e = .ok i := by
  unfold decodeTableWord at h
  split at h
  · cases h
  · next e he =>
    split at h
    · next j hj => exact ⟨e, he, by rw [hj, Option.some.inj h]⟩
    · cases h

theorem withFetchWord_of_classify {nbits w : Nat} {e : Encoded} (h : classify nbits w = .ok e) (s : State) :
    s.withFetchWord nbits w = s.offer (presentAs e s) := by
  rw [State.withFetchWord, h]

/-- The record for a request word carries that word. -/
theorem recordWith_word (s : State) (w : BitVec 10) : (s.recordWith w).kind ++ (s.recordWith w).code = w := by
  change w.extractLsb' 8 2 ++ w.extractLsb' 0 8 = w
  rw [BitVec.extractLsb'_append_extractLsb'_eq_extractLsb' (by rfl), BitVec.extractLsb'_eq_self]

/-- Settles O6, by the three formats of a word. -/
theorem placedWordRunsNext : Obligations.PlacedWordRunsNext := by
  intro s nbits w i h
  obtain ⟨e, he, hd⟩ := decodeTableWord_eq_some h
  rw [withFetchWord_of_classify he]
  cases e with
  | req10 w =>
    obtain rfl : decodeReq10 w = i := Except.ok.inj hd
    have hstep := step_of_request (s := s.offer (.request (s.recordWith w) none)) rfl rfl
    rw [recordWith_word] at hstep
    refine ⟨_, hstep, rfl, rfl, rfl, rfl, rfl, rfl, rfl, rfl, fun j hj => ?_, rfl, rfl, rfl⟩
    rw [accept_text, textRead_terminate, if_neg (Nat.ne_of_lt hj)]
    rfl
  | lcd8 b =>
    exact ⟨_, step_of_byte rfl rfl hd, rfl, rfl, rfl, rfl, rfl, rfl, rfl, rfl, fun _ _ => rfl, rfl, rfl, rfl⟩
  | frame5 w =>
    exact ⟨_, step_of_frame rfl rfl hd, rfl, rfl, rfl, rfl, rfl, rfl, rfl, rfl, fun _ _ => rfl, rfl, rfl, rfl⟩

/-! ### What emitting events does -/

@[simp] theorem emitEvents_pending (k : Nat) (as : List Act) (s : State) :
    (emitEvents k as s).pending = (splitEvents k as).2 := rfl

@[simp] theorem emitEvents_trace (k : Nat) (as : List Act) (s : State) :
    (emitEvents k as s).trace = (performAll (splitEvents k as).1 s).trace := rfl

@[simp] theorem emitEvents_lifecycle (k : Nat) (as : List Act) (s : State) :
    (emitEvents k as s).lifecycle = (performAll (splitEvents k as).1 s).lifecycle := rfl

@[simp] theorem emitEvents_inputs (k : Nat) (as : List Act) (s : State) : (emitEvents k as s).inputs = s.inputs :=
  performAll_inputs (splitEvents k as).1 s

@[simp] theorem emitEvents_kind (k : Nat) (as : List Act) (s : State) : (emitEvents k as s).kind = s.kind :=
  performAll_kind (splitEvents k as).1 s

@[simp] theorem emitEvents_code (k : Nat) (as : List Act) (s : State) : (emitEvents k as s).code = s.code :=
  performAll_code (splitEvents k as).1 s

@[simp] theorem emitEvents_setupOk (k : Nat) (as : List Act) (s : State) : (emitEvents k as s).setupOk = s.setupOk :=
  performAll_setupOk (splitEvents k as).1 s

@[simp] theorem emitEvents_text (k : Nat) (as : List Act) (s : State) : (emitEvents k as s).text = s.text :=
  performAll_text (splitEvents k as).1 s

@[simp] theorem emitEvents_textPresent (k : Nat) (as : List Act) (s : State) :
    (emitEvents k as s).textPresent = s.textPresent :=
  performAll_textPresent (splitEvents k as).1 s

@[simp] theorem emitEvents_line (k : Nat) (as : List Act) (s : State) : (emitEvents k as s).line = s.line :=
  performAll_line (splitEvents k as).1 s

@[simp] theorem emitEvents_offset (k : Nat) (as : List Act) (s : State) : (emitEvents k as s).offset = s.offset :=
  performAll_offset (splitEvents k as).1 s

/-- What is emitted is part of the list. -/
theorem mem_of_mem_emitted {k : Nat} {as : List Act} {a : Act} (h : a ∈ (splitEvents k as).1) : a ∈ as :=
  split_parts k as ▸ List.mem_append_left _ h

/-- What is left is part of the list. -/
theorem mem_of_mem_left {k : Nat} {as : List Act} {a : Act} (h : a ∈ (splitEvents k as).2) : a ∈ as :=
  split_parts k as ▸ List.mem_append_right _ h

/-- A busy driver left alone emits the next event of its request (R30). -/
theorem step_of_busy {s t : State} (hb : s.busy = true) (hu : s.undisturbed = true) (h : step s = .next t) :
    t = emitEvents 1 s.pending s := by
  by_cases hp : s.pending = []
  · rw [step_of_undisturbed hu, if_pos hb, resume, hp] at h
    cases h
  · rw [step_of_running hu hb hp] at h
    exact (Host.Outcome.next.inj h).symm

/-- Settles O8: emitting an event writes no request register and takes no input. -/
theorem busyDriverLetsRequestsWait : Obligations.BusyDriverLetsRequestsWait := by
  intro s t hb hu h
  rw [step_of_busy hb hu h]
  simp only [emitEvents_inputs, emitEvents_kind, emitEvents_code, emitEvents_setupOk, emitEvents_text,
    emitEvents_textPresent, emitEvents_line, emitEvents_offset, and_self]

/-! ### A request run to its `Done` is one cut after its last event -/

/-- All the events of a properly ending list emitted, nothing of it is left. -/
theorem emitEvents_all {e : Bool} {l : Lifecycle} {as : List Act} {k : Nat} {s : State} (hc : closes e l as = true)
    (hk : eventCount as ≤ k) (hp : s.pending = []) : emitEvents k as s = performAll as s := by
  obtain ⟨body, st, rfl, -⟩ := closes_done hc
  have hs : ({ s with pending := [] } : State) = s := by rw [← hp]
  rw [emitEvents, split_all body (.done st) rfl k hk, ← performAll_withPending, hs]

/-- What an accepted request performs (R30). -/
def requestActs (r : Request) (s : State) : List Act := actsOf (decodeReq10 r.word) (accept r s)

theorem closes_requestActs (r : Request) (s : State) : closes false s.lifecycle (requestActs r s) = true :=
  closes_actsOf (decodeReq10_isRequest r.word) (accept r s)

/-- A request run whole is one cut after all its events. -/
theorem requestState_eq_emitEvents (r : Request) (hold : Option Nat) {s : State} (hp : s.pending = []) :
    ∃ k, requestState r hold s = emitEvents k (requestActs r s) (accept r s) := by
  cases hold with
  | some k => exact ⟨k, rfl⟩
  | none => exact ⟨_, (emitEvents_all (s := accept r s) (closes_requestActs r s) le_rfl hp).symm⟩

/-- A properly ending list cut anywhere leaves the driver idle or running (R30, R32(a)). -/
theorem idleOrRunning_emitEvents (k : Nat) {as : List Act} {s : State} (hb : s.busy = true)
    (hc : closes s.pins.e s.lifecycle as = true) : idleOrRunning (emitEvents k as s) = true := by
  by_cases hq : (splitEvents k as).2 = []
  · have hall : (splitEvents k as).1 = as := by simpa [hq] using split_parts k as
    obtain ⟨hbusy, he, -⟩ := closes_whole s as hc
    simp [idleOrRunning, emitEvents, hall, hq, hbusy, he]
  · obtain ⟨hrest, hbusy, -⟩ := closes_part s ((split_parts k as).symm ▸ hc) hq
    simp [idleOrRunning, emitEvents, hrest, hbusy, hb]

/-! ### The invariant of an idle driver and of a busy one -/

/-- The invariant, conjunct by conjunct. -/
theorem inv_iff (s : State) : s.inv = true ↔ idleOrRunning s = true ∧ sinkOk s.sink = true
    ∧ (s.busy = true → textRead s.text 49 = 0#8) ∧ s.pending.all (Act.ownLifecycle s.kind s.setupOk) = true := by
  simp only [State.inv, Bool.and_eq_true, and_assoc, Bool.or_eq_true, Bool.not_eq_true', beq_iff_eq]
  cases s.busy <;> simp

/-- An idle driver: E low, nothing left to do, the ghost's memory in form (R32(a), R61). -/
theorem inv_iff_of_idle {s : State} (hb : s.busy = false) :
    s.inv = true ↔ s.pins.e = false ∧ s.pending = [] ∧ sinkOk s.sink = true := by
  simp +contextual [inv_iff, idleOrRunning, hb, and_assoc]

/-- A busy driver: what is left ends properly, the text is terminated, and only an INIT has a lifecycle to write (R26,
R162, R22). -/
theorem inv_iff_of_busy {s : State} (hb : s.busy = true) :
    s.inv = true ↔ closes s.pins.e s.lifecycle s.pending = true ∧ sinkOk s.sink = true ∧ textRead s.text 49 = 0#8
      ∧ s.pending.all (Act.ownLifecycle s.kind s.setupOk) = true := by
  simp [inv_iff, idleOrRunning, hb]

/-- A busy driver with a properly ending list keeps the invariant through any number of its events. -/
theorem inv_emitEvents (k : Nat) {as : List Act} {s : State} (hb : s.busy = true)
    (h : ({ s with pending := as } : State).inv = true) : (emitEvents k as s).inv = true := by
  obtain ⟨hc, hk, ht, ho⟩ := (inv_iff_of_busy (s := { s with pending := as }) hb).1 h
  rw [inv_iff]
  refine ⟨idleOrRunning_emitEvents k hb hc, performAll_sinkOk _ hk, fun _ => by simpa using ht, ?_⟩
  rw [emitEvents_kind, emitEvents_setupOk, emitEvents_pending, List.all_eq_true]
  exact fun a ha => List.all_eq_true.1 ho a (mem_of_mem_left ha)

/-- A request just accepted by an idle driver, all of it still to do, meets the invariant. -/
theorem inv_accepted (r : Request) {s : State} (hb : s.busy = false) (h : s.inv = true) :
    ({ accept r s with pending := requestActs r s } : State).inv = true := by
  obtain ⟨he, -, hk⟩ := (inv_iff_of_idle hb).1 h
  rw [inv_iff_of_busy rfl]
  refine ⟨?_, hk, ?_, own_actsOf r s⟩
  · simpa [he] using closes_requestActs r s
  · simp [textRead_terminate]

theorem inv_requestState (r : Request) (hold : Option Nat) {s : State} (hb : s.busy = false) (h : s.inv = true) :
    (requestState r hold s).inv = true := by
  obtain ⟨-, hp, -⟩ := (inv_iff_of_idle hb).1 h
  obtain ⟨k, hk⟩ := requestState_eq_emitEvents r hold hp
  rw [hk]
  exact inv_emitEvents k rfl (inv_accepted r hb h)

theorem inv_applyReset {s : State} (h : s.inv = true) : (applyReset s).inv = true := by
  obtain ⟨-, hk, -, -⟩ := (inv_iff s).1 h
  rw [inv_iff_of_idle rfl]
  refine ⟨rfl, rfl, ?_⟩
  unfold applyReset
  split
  · rfl
  · exact hk

theorem inv_loseLcd {s : State} (h : s.inv = true) : (loseLcd s).inv = true := by
  obtain ⟨hr, -, ht, ho⟩ := (inv_iff s).1 h
  rw [inv_iff]
  refine ⟨idleOrRunning_loseLcd hr, rfl, ht, ?_⟩
  rw [loseLcd_pending, List.all_eq_true]
  exact fun a ha => List.all_eq_true.1 ho a (List.mem_of_mem_filter ha)

/-- New levels on an idle driver's lines, E low, and a ghost in form keep the invariant. -/
theorem inv_withLines {s : State} {p : Pins} {es : List Event} {k : Option Lcd} (hb : s.busy = false)
    (h : s.inv = true) (hp : p.e = false) (hk : sinkOk k = true) :
    ({ s with pins := p, trace := es, sink := k } : State).inv = true := by
  obtain ⟨-, hpending, -⟩ := (inv_iff_of_idle hb).1 h
  exact (inv_iff_of_idle (s := { s with pins := p, trace := es, sink := k }) hb).2 ⟨hp, hpending, hk⟩

/-- A lone frame leaves E low and the ghost's memory in form (R110, R115). -/
theorem inv_sendFrame (rs : Bool) (n : Nibble) {s : State} (hb : s.busy = false) (h : s.inv = true) :
    (performAll (sendFrame s.cfg rs n) s).inv = true := by
  obtain ⟨-, -, hk⟩ := (inv_iff_of_idle hb).1 h
  rw [performAll_sendFrame]
  exact inv_withLines hb h rfl (latch_ok hk)

/-- A lone byte leaves E low and the ghost's memory in form (R125, R115). -/
theorem inv_transmit (b : Byte) {s : State} (hb : s.busy = false) (h : s.inv = true) : (transmit b s).inv = true := by
  obtain ⟨-, -, hk⟩ := (inv_iff_of_idle hb).1 h
  rw [transmit, sendInstruction, performAll_sendByte]
  exact inv_withLines hb h rfl (latch_ok (latch_ok hk))

/-- Settles O44, by the cases of `step_cases`. -/
theorem stepKeepsTheInvariant : Obligations.StepKeepsTheInvariant := by
  intro s t h hstep
  obtain ⟨rest, -, rfl⟩ | ⟨rest, -, rfl⟩ | ⟨-, hb, -, rfl⟩ | ⟨r, hold, rest, hb, -, rfl⟩ | ⟨b, rest, hb, -, rfl⟩
    | ⟨w, rest, hb, -, rfl⟩ | ⟨-, -, rfl⟩ := step_cases hstep
  · exact inv_applyReset (s := { s with inputs := rest }) h
  · exact inv_loseLcd (s := { s with inputs := rest }) h
  · exact inv_emitEvents 1 hb h
  · exact inv_requestState r hold (s := { s with inputs := rest }) hb h
  · exact inv_transmit b (s := { s with inputs := rest }) hb h
  · exact inv_sendFrame _ _ (s := { s with inputs := rest }) hb h
  · exact h

/-- Settles O45: an idle driver with E low and an unknown LCD, nothing presented and no event yet. -/
theorem resetMeetsTheInvariants : Obligations.ResetMeetsTheInvariants := by
  have hinv : State.reset.inv = true := (inv_iff_of_idle rfl).2 ⟨rfl, rfl, rfl⟩
  exact ⟨hinv, by rw [State.quietInv, hinv]; rfl⟩

/-! ### A step always goes on -/

/-- An idle driver always answers: every request, byte and frame runs, and with nothing presented it waits. -/
theorem whenIdle_next (s : State) : ∃ t, whenIdle s = .next t := by
  unfold whenIdle
  split
  · exact ⟨_, runRequest_eq _ _ _⟩
  · exact ⟨_, runByte_eq _ _⟩
  · exact ⟨_, runFrame_eq _ _⟩
  · exact ⟨_, rfl⟩

theorem pending_ne_nil_of_busy {s : State} (hb : s.busy = true) (h : s.inv = true) : s.pending ≠ [] := by
  obtain ⟨hc, -⟩ := (inv_iff_of_busy hb).1 h
  intro hp
  rw [hp] at hc
  cases hc

/-- Left alone, a driver that meets the invariant always answers. -/
theorem step_next_of_undisturbed {s : State} (h : s.inv = true) (hu : s.undisturbed = true) :
    ∃ t, step s = .next t := by
  cases hb : s.busy with
  | true => exact ⟨_, step_of_running hu hb (pending_ne_nil_of_busy hb h)⟩
  | false => exact (step_of_idle hu hb).symm ▸ whenIdle_next s

/-- Settles O10, by what comes next: only another agent stops the step. -/
theorem stepStopsOnlyForAnotherAgent : Obligations.StepStopsOnlyForAnotherAgent := by
  intro s h
  cases hi : s.inputs with
  | nil => exact .inl (step_next_of_undisturbed h (undisturbed_of_inputs_nil hi))
  | cons x rest =>
    cases x with
    | reset => exact .inl ⟨_, by rw [step, hi]⟩
    | lcdLost => exact .inl ⟨_, by rw [step, hi]⟩
    | otherAgent => exact .inr ⟨⟨rest, rfl⟩, by rw [step, hi]⟩
    | request r hold => exact .inl (step_next_of_undisturbed h (undisturbed_of_inputs_cons hi rfl))
    | byte b => exact .inl (step_next_of_undisturbed h (undisturbed_of_inputs_cons hi rfl))
    | frame w => exact .inl (step_next_of_undisturbed h (undisturbed_of_inputs_cons hi rfl))

/-! ### The lifecycle -/

/-- A lifecycle that is a request's own to write is INIT's, and the one `setup_ok` names (R22). -/
theorem ownLifecycle_of_all {kind : BitVec 2} {ok : Bool} {as : List Act} {l : Lifecycle}
    (h : as.all (Act.ownLifecycle kind ok) = true) (hl : .setLifecycle l ∈ as) :
    kind = 0#2 ∧ l = if ok then .READY else .FAILED := by
  simpa [Act.ownLifecycle] using List.all_eq_true.1 h _ hl

/-- A busy driver that meets the invariant moves the lifecycle only out of `UNINIT`, for an INIT, to where `setup_ok` says
(R22). -/
theorem emitEvents_lifecycle_cases (k : Nat) {as : List Act} {s : State} (hb : s.busy = true)
    (h : ({ s with pending := as } : State).inv = true) :
    (emitEvents k as s).lifecycle = s.lifecycle
      ∨ (s.lifecycle = .UNINIT ∧ s.kind = 0#2 ∧ (emitEvents k as s).lifecycle = if s.setupOk then .READY else .FAILED) := by
  obtain ⟨hc, -, -, ho⟩ := (inv_iff_of_busy (s := { s with pending := as }) hb).1 h
  rw [emitEvents_lifecycle]
  refine (performAll_lifecycle (splitEvents k as).1 s).imp_right fun hmem => ?_
  have hmem := mem_of_mem_emitted hmem
  obtain ⟨hkind, hl⟩ := ownLifecycle_of_all ho hmem
  exact ⟨by_contra fun hne => closes_noLifecycle hc hne _ hmem, hkind, hl⟩

theorem transmit_lifecycle (b : Byte) (s : State) : (transmit b s).lifecycle = s.lifecycle := by
  rw [transmit, sendInstruction, performAll_sendByte]

theorem sendFrame_lifecycle (rs : Bool) (n : Nibble) (s : State) :
    (performAll (sendFrame s.cfg rs n) s).lifecycle = s.lifecycle := by
  rw [performAll_sendFrame]

/-- Settles O48, by the cases of `step_cases`. -/
theorem lifecycleMovesOnlyAsStated : Obligations.LifecycleMovesOnlyAsStated := by
  intro s t h hstep
  obtain ⟨rest, hi, rfl⟩ | ⟨rest, -, rfl⟩ | ⟨hu, hb, -, rfl⟩ | ⟨r, hold, rest, hb, hi, rfl⟩ | ⟨b, rest, -, -, rfl⟩
    | ⟨w, rest, -, -, rfl⟩ | ⟨-, -, rfl⟩ := step_cases hstep
  · exact .inr (.inr (.inr ⟨⟨rest, hi⟩, rfl⟩))
  · exact .inl rfl
  · rcases emitEvents_lifecycle_cases 1 hb h with hsame | ⟨hl, hkind, hto⟩
    · exact .inl hsame
    · exact .inr (.inl ⟨hl, hb, hu, hkind, hto⟩)
  · obtain ⟨-, hp, -⟩ := (inv_iff_of_idle hb).1 h
    obtain ⟨k, hk⟩ := requestState_eq_emitEvents r hold (s := { s with inputs := rest }) hp
    rw [hk]
    rcases emitEvents_lifecycle_cases k rfl (inv_accepted r (s := { s with inputs := rest }) hb h) with
      hsame | ⟨hl, hkind, hto⟩
    · exact .inl hsame
    · exact .inr (.inr (.inl ⟨hl, hb, r, hold, rest, hi, hkind, hto⟩))
  · exact .inl (transmit_lifecycle b _)
  · exact .inl (sendFrame_lifecycle _ _ { s with inputs := rest })
  · exact .inl rfl

/-! ### The lines are quiet until INIT -/

/-- `quietUntilReady` as a proposition (R32(b)). -/
theorem quietUntilReady_iff (s : State) : quietUntilReady s = true ↔ s.lifecycle = .READY
    ∨ .setLifecycle .READY ∈ s.pending
    ∨ (pinSinceReset s.trace = false ∧ ∀ a ∈ s.pending, a.isPinWrite = false) := by
  simp [quietUntilReady, or_assoc]

/-- A list that writes one value to the lifecycle leaves that value. -/
theorem performAll_lifecycle_of_mem {as : List Act} {l : Lifecycle} (hall : ∀ k, .setLifecycle k ∈ as → k = l)
    (hmem : .setLifecycle l ∈ as) (s : State) : (performAll as s).lifecycle = l := by
  obtain ⟨before, after, rfl⟩ := List.append_of_mem hmem
  rw [performAll_append, performAll_cons]
  rcases performAll_lifecycle after (perform (.setLifecycle l) (performAll before s)) with hsame | hlater
  · exact hsame
  · exact hall _ (by simp [hlater])

/-- Primitives that change no pin leave what is known of the pins since reset. -/
theorem pinSince_eventsOf {as : List Act} (h : ∀ a ∈ as, a.isPinWrite = false) (b : Bool) (g : Diag) :
    pinSince b (eventsOf g as) = b := by
  induction as generalizing g with
  | nil => rfl
  | cons a as ih =>
    obtain ⟨ha, has⟩ := List.forall_mem_cons.1 h
    cases a with
    | pinWrite x v => cases ha
    | _ => exact ih has _

/-- Outside `READY` every request but INIT is refused (R203). -/
theorem actsOf_of_not_ready {i : Instr} (hi : isRequestRow i = true) (hn : isInitRow i = false) {s : State}
    (hl : s.lifecycle ≠ .READY) : actsOf i s = [.done .BAD_STATE] := by
  have refused (body : List Act) : whenReady s body = [.done .BAD_STATE] := if_neg hl
  cases i with
  | init => cases hn
  | lcdClear | lcdEntryMode | lcdDisplayControl | lcdFunctionSet | lcdAddressSet | frame => cases hi
  | _ => exact refused _

theorem ready_mem_initSequence (c : Config) : .setLifecycle .READY ∈ initSequence c := by
  simp [initSequence]

/-- A request changes pins only in `READY`, or as an INIT that has `lifecycle <- READY` to do (R32(b)). -/
theorem actsOf_quiet {i : Instr} (hi : isRequestRow i = true) (s : State) : s.lifecycle = .READY
    ∨ .setLifecycle .READY ∈ actsOf i s ∨ ∀ a ∈ actsOf i s, a.isPinWrite = false := by
  cases hn : isInitRow i with
  | false =>
    by_cases hl : s.lifecycle = .READY
    · exact .inl hl
    · exact .inr (.inr (by simp [actsOf_of_not_ready hi hn hl, Act.isPinWrite]))
  | true =>
    cases i with
    | init code =>
      right
      simp only [actsOf, initActs]
      split_ifs
      · exact .inr (by simp [refuse, Act.isPinWrite])
      · exact .inr (by simp [refuse, Act.isPinWrite])
      · exact .inl (ready_mem_initSequence s.cfg)
    | _ => cases hn

/-- A busy driver keeps the lines quiet through any number of its events. -/
theorem quiet_emitEvents (k : Nat) {as : List Act} {s : State} (hb : s.busy = true)
    (h : ({ s with pending := as } : State).inv = true)
    (hq : quietUntilReady { s with pending := as } = true) : quietUntilReady (emitEvents k as s) = true := by
  obtain ⟨hc, -, -, ho⟩ := (inv_iff_of_busy (s := { s with pending := as }) hb).1 h
  rw [quietUntilReady_iff] at hq ⊢
  rcases hq with hready | hmem | ⟨hpins, hnone⟩
  · left
    rcases emitEvents_lifecycle_cases k hb h with hsame | ⟨huninit, -⟩
    · exact hsame.trans hready
    · cases huninit.symm.trans hready
  · rcases List.mem_append.1 ((split_parts k as).symm ▸ hmem) with hdone | hleft
    · left
      refine performAll_lifecycle_of_mem (fun l hl => ?_) hdone s
      exact (ownLifecycle_of_all ho (mem_of_mem_emitted hl)).2.trans (ownLifecycle_of_all ho hmem).2.symm
    · exact .inr (.inl hleft)
  · refine .inr (.inr ⟨?_, fun a ha => hnone a (mem_of_mem_left ha)⟩)
    rw [emitEvents_trace, performAll_trace, pinSinceReset, pinSince_append,
      pinSince_eventsOf fun a ha => hnone a (mem_of_mem_emitted ha)]
    exact hpins

/-- A request just accepted by an idle driver keeps the lines quiet until INIT. -/
theorem quiet_accepted (r : Request) {s : State} (hp : s.pending = []) (hq : quietUntilReady s = true) :
    quietUntilReady { accept r s with pending := requestActs r s } = true := by
  rw [quietUntilReady_iff] at hq ⊢
  rcases actsOf_quiet (decodeReq10_isRequest r.word) (accept r s) with hready | hmem | hnone
  · exact .inl hready
  · exact .inr (.inl hmem)
  · rcases hq with hready | hmem | ⟨hpins, -⟩
    · exact .inl hready
    · rw [hp] at hmem; cases hmem
    · exact .inr (.inr ⟨hpins, hnone⟩)

theorem quiet_requestState (r : Request) (hold : Option Nat) {s : State} (hb : s.busy = false) (h : s.inv = true)
    (hq : quietUntilReady s = true) : quietUntilReady (requestState r hold s) = true := by
  obtain ⟨-, hp, -⟩ := (inv_iff_of_idle hb).1 h
  obtain ⟨k, hk⟩ := requestState_eq_emitEvents r hold hp
  rw [hk]
  exact quiet_emitEvents k rfl (inv_accepted r hb h) (quiet_accepted r hp hq)

theorem quiet_applyReset (s : State) : quietUntilReady (applyReset s) = true := by
  refine (quietUntilReady_iff _).2 (.inr (.inr ⟨?_, fun a ha => by cases ha⟩))
  change pinSince false (s.trace ++ [.reset]) = false
  rw [pinSince_append]
  rfl

theorem quiet_loseLcd {s : State} (hq : quietUntilReady s = true) : quietUntilReady (loseLcd s) = true := by
  rw [quietUntilReady_iff] at hq ⊢
  rcases hq with hready | hmem | ⟨hpins, hnone⟩
  · exact .inl hready
  · exact .inr (.inl (List.mem_filter.2 ⟨hmem, rfl⟩))
  · exact .inr (.inr ⟨hpins, fun a ha => hnone a (List.mem_of_mem_filter ha)⟩)

theorem quietInv_iff (s : State) :
    s.quietInv = true ↔ s.inv = true ∧ s.inputs.all Input.fromHost = true ∧ quietUntilReady s = true := by
  simp only [State.quietInv, Bool.and_eq_true, and_assoc]

@[simp] theorem requestState_inputs (r : Request) (hold : Option Nat) (s : State) :
    (requestState r hold s).inputs = s.inputs := by
  cases hold with
  | none => exact performAll_inputs _ (accept r s)
  | some k => exact emitEvents_inputs k _ (accept r s)

/-- Settles O46, by the cases of `step_cases`; a lone byte or frame is not what such a host sends. -/
theorem stepKeepsTheLinesQuiet : Obligations.StepKeepsTheLinesQuiet := by
  intro s t h hstep
  obtain ⟨hinv, hhost, hq⟩ := (quietInv_iff s).1 h
  have tail {x : Input} {rest : List Input} (hi : s.inputs = x :: rest) :
      x.fromHost = true ∧ rest.all Input.fromHost = true := by simpa [hi] using hhost
  refine (quietInv_iff t).2 ⟨stepKeepsTheInvariant s t hinv hstep, ?_⟩
  obtain ⟨rest, hi, rfl⟩ | ⟨rest, hi, rfl⟩ | ⟨-, hb, -, rfl⟩ | ⟨r, hold, rest, hb, hi, rfl⟩ | ⟨b, rest, -, hi, -⟩
    | ⟨w, rest, -, hi, -⟩ | ⟨-, -, rfl⟩ := step_cases hstep
  · exact ⟨(tail hi).2, quiet_applyReset _⟩
  · exact ⟨(tail hi).2, quiet_loseLcd (s := { s with inputs := rest }) hq⟩
  · exact ⟨by rwa [emitEvents_inputs], quiet_emitEvents 1 hb hinv hq⟩
  · exact ⟨by rw [requestState_inputs]; exact (tail hi).2,
      quiet_requestState r hold (s := { s with inputs := rest }) hb hinv hq⟩
  · cases (tail hi).1
  · cases (tail hi).1
  · exact ⟨hhost, hq⟩

/-- Outside `UNINIT` nothing left of a request writes the lifecycle. -/
theorem no_setLifecycle_pending {s : State} (h : s.inv = true) (hl : s.lifecycle ≠ .UNINIT) (k : Lifecycle) :
    .setLifecycle k ∉ s.pending := by
  cases hb : s.busy with
  | true =>
    obtain ⟨hc, -⟩ := (inv_iff_of_busy hb).1 h
    exact closes_noLifecycle hc hl k
  | false =>
    obtain ⟨-, hp, -⟩ := (inv_iff_of_idle hb).1 h
    rw [hp]
    exact List.not_mem_nil

/-- Settles O47: of the three ways to be quiet, `FAILED` leaves only the one that changed no pin. -/
theorem failedDriverChangedNoLine : Obligations.FailedDriverChangedNoLine := by
  intro s h hl
  obtain ⟨hinv, -, hq⟩ := (quietInv_iff s).1 h
  rcases (quietUntilReady_iff s).1 hq with hready | hmem | ⟨hpins, -⟩
  · cases hl.symm.trans hready
  · exact absurd hmem (no_setLifecycle_pending hinv (by rw [hl]; decide) _)
  · exact hpins

/-! ### What no result depends on -/

/-- What an instruction performs is no function of the sink (R31). -/
theorem actsOf_withSink (i : Instr) (s : State) (k : Option Lcd) : actsOf i { s with sink := k } = actsOf i s := by
  cases i <;> rfl

/-- Settles O20: the primitives are the same, and each writes the rest of the state alike. -/
theorem driverNeverReadsTheLcd : Obligations.DriverNeverReadsTheLcd := by
  intro i s k
  refine ⟨_, _, exec_eq_performAll i s, exec_eq_performAll i _, ?_⟩
  obtain ⟨k', hk⟩ := performAll_withSink (actsOf i s) s k
  rw [actsOf_withSink, hk]

/-- What an accepted request performs depends on the record, the configuration and the lifecycle alone (R27, R28). -/
theorem actsOf_accept_congr (i : Instr) (r : Request) {s u : State} (hc : s.cfg = u.cfg)
    (hl : s.lifecycle = u.lifecycle) : actsOf i (accept r s) = actsOf i (accept r u) := by
  cases s
  cases u
  simp only at hc hl
  subst hc hl
  cases i <;> rfl

/-- Acceptance keeps alike what is seen alike. -/
theorem accept_seen (r : Request) {s u : State} (h : s.seen = u.seen) : (accept r s).seen = (accept r u).seen := by
  simp_all [State.seen]

/-- Settles O43: the same primitives, performed on states that are seen alike. -/
theorem unspecifiedRegistersHaveNoEffect : Obligations.UnspecifiedRegistersHaveNoEffect := by
  intro s u r i _ hc h
  have hl : s.lifecycle = u.lifecycle := congrArg (·.2.1) h
  refine ⟨_, _, exec_eq_performAll i _, exec_eq_performAll i _, ?_⟩
  rw [actsOf_accept_congr i r hc hl]
  exact performAll_seen _ _ _ hc (accept_seen r h)

/-! ### Small steps -/

theorem run_succ_of_step {M : Host.Core} {s t : M.State} (h : M.step s = .next t) (n : Nat) :
    M.run (n + 1) s = M.run n t := by
  rw [Host.Core.run, h]

/-- Only a `Done` ends a request (R26). -/
theorem performAll_busy_of_noDone {as : List Act} (h : ∀ a ∈ as, ∀ q, a ≠ .done q) (s : State) :
    (performAll as s).busy = s.busy := by
  induction as generalizing s with
  | nil => rfl
  | cons a as ih =>
    obtain ⟨ha, has⟩ := List.forall_mem_cons.1 h
    rw [performAll_cons, ih has]
    cases a with
    | done q => exact absurd rfl (ha q)
    | _ => rfl

/-- Short of its last event a request is still running. -/
theorem emitEvents_busy_of_short {e : Bool} {l : Lifecycle} {as : List Act} (hc : closes e l as = true) {k : Nat}
    (hk : k < eventCount as) (s : State) : (emitEvents k as s).busy = s.busy := by
  obtain ⟨body, st, rfl, hbody⟩ := closes_done hc
  have hbefore : (splitEvents k (body ++ [.done st])).1 <+: body := by
    have hparts := split_parts k (body ++ [.done st])
    obtain ⟨rest, a, hrest⟩ := List.eq_nil_or_concat _ |>.resolve_left (split_short k _ hk)
    rw [hrest, List.concat_eq_append, ← List.append_assoc] at hparts
    exact ⟨rest, (List.append_inj' hparts rfl).1⟩
  exact performAll_busy_of_noDone (fun a ha => hbody a (hbefore.subset ha)) s

/-- A running request left alone, one event a step (R30). -/
theorem run_emitEvents {e : Bool} {l : Lifecycle} {as : List Act} (hc : closes e l as = true) {s : State}
    (hb : s.busy = true) (hu : s.undisturbed = true) (j k : Nat) (hjk : k + j ≤ eventCount as) :
    Sys2Proof.core.run j (emitEvents k as s) = .next (emitEvents (k + j) as s) := by
  induction j generalizing k with
  | zero => rfl
  | succ j ih =>
    have hk : k < eventCount as := by omega
    have hstep : step (emitEvents k as s) = .next (emitEvents (k + 1) as s) := by
      rw [← emit_emit 1 k]
      refine step_of_running ?_ ((emitEvents_busy_of_short hc hk s).trans hb) (split_short k as hk)
      rw [State.undisturbed, emitEvents_inputs]
      exact hu
    calc Sys2Proof.core.run (j + 1) (emitEvents k as s)
        = Sys2Proof.core.run j (emitEvents (k + 1) as s) := run_succ_of_step (M := Sys2Proof.core) hstep j
      _ = .next (emitEvents (k + 1 + j) as s) := ih (k + 1) (by omega)
      _ = .next (emitEvents (k + (j + 1)) as s) := by rw [Nat.add_assoc, Nat.add_comm 1 j]

/-- A running request left alone comes to the end of its list in as many steps as it has events left. -/
theorem run_to_end {e : Bool} {l : Lifecycle} {as : List Act} (hc : closes e l as = true) {s : State}
    (hb : s.busy = true) (hu : s.undisturbed = true) (hp : s.pending = []) {k : Nat} (hk : k ≤ eventCount as) :
    Sys2Proof.core.run (eventCount as - k) (emitEvents k as s) = .next (performAll as s) := by
  rw [← emitEvents_all hc (Nat.add_sub_of_le hk).ge hp]
  exact run_emitEvents hc hb hu _ k (Nat.add_sub_of_le hk).le

theorem step_of_held_request {s : State} {r : Request} {k : Nat} {rest : List Input} (hb : s.busy = false)
    (hi : s.inputs = .request r (some k) :: rest) :
    step s = .next (emitEvents k (requestActs r { s with inputs := rest }) (accept r { s with inputs := rest })) := by
  rw [step_of_idle (undisturbed_of_inputs_cons hi rfl) hb, whenIdle, hi]
  rfl

/-- Settles O51: the first step emits `k` events, each later step one more, and after the last nothing is left. -/
theorem smallStepsReachTheAtomicResult : Obligations.SmallStepsReachTheAtomicResult := by
  intro s u r k rest hb hp hi hu hexec hk
  obtain ⟨a, ha⟩ : ∃ a : State, a = { s with inputs := rest } := ⟨_, rfl⟩
  rw [← ha] at hu hexec
  obtain rfl : performAll (requestActs r a) (accept r a) = u :=
    Host.Outcome.next.inj ((exec_eq_performAll _ _).symm.trans hexec)
  have htrace : (performAll (requestActs r a) (accept r a)).trace = s.trace ++ eventsOf Diag.clear (requestActs r a) := by
    rw [performAll_trace, accept_trace, accept_diag, ha]
  have hstep : step s = .next (emitEvents k (requestActs r a) (accept r a)) := ha ▸ step_of_held_request hb hi
  rw [newEvents_of htrace, eventsOf_length] at hk ⊢
  rw [Nat.add_comm]
  exact (run_succ_of_step (M := Sys2Proof.core) hstep _).trans
    (run_to_end (s := accept r a) (closes_requestActs r a) rfl hu (by rw [accept_pending, ha, hp]) hk)

/-! ### Frames -/

/-- The list is made of whole frames and of primitives that change no pin. -/
inductive Framed : List Act → Prop
  | nil : Framed []
  | frame (c : Config) (rs : Bool) (n : Nibble) {as : List Act} : Framed as → Framed (sendFrame c rs n ++ as)
  | silent {a : Act} {as : List Act} : a.isPinWrite = false → Framed as → Framed (a :: as)

theorem Framed.append {as bs : List Act} (ha : Framed as) (hb : Framed bs) : Framed (as ++ bs) := by
  induction ha with
  | nil => exact hb
  | frame c rs n _ ih => rw [List.append_assoc]; exact .frame c rs n ih
  | silent h _ ih => exact .silent h ih

theorem framed_flatMap {α : Type} {f : α → List Act} {xs : List α} (h : ∀ x ∈ xs, Framed (f x)) :
    Framed (xs.flatMap f) := by
  induction xs with
  | nil => exact .nil
  | cons x xs ih =>
    obtain ⟨hx, hxs⟩ := List.forall_mem_cons.1 h
    exact hx.append (ih hxs)

theorem framed_sendFrame (c : Config) (rs : Bool) (n : Nibble) : Framed (sendFrame c rs n) :=
  List.append_nil (sendFrame c rs n) ▸ .frame c rs n .nil

theorem framed_sendByte (c : Config) (m : Mode) (b : Byte) : Framed (sendByte c m b) :=
  (framed_sendFrame c _ _).append (framed_sendFrame c _ _)

/-- Two writes of registers between the frames. -/
theorem framed_pair {a b : Act} (ha : a.isPinWrite = false) (hb : b.isPinWrite = false) : Framed [a, b] :=
  .silent ha (.silent hb .nil)

theorem framed_normDiag (l : Word) : Framed (normDiag l) := by
  unfold normDiag
  split_ifs
  · exact .nil
  · exact .silent rfl .nil

theorem framed_setPosition (c : Config) (l o : Word) : Framed (setPosition c l o) :=
  (framed_normDiag l).append (framed_sendByte c _ _)

theorem framed_setLineStart (c : Config) (l : Word) : Framed (setLineStart c l) :=
  (framed_normDiag l).append (framed_sendByte c _ _)

theorem framed_renderLoop (c : Config) (t : Vector Byte 50) (fuel : Nat) (k : Line) (n : Word) (i : BitVec 6) :
    Framed (renderLoop c t fuel k n i) := by
  induction fuel generalizing k n i with
  | zero => exact .nil
  | succ fuel ih =>
    simp only [renderLoop]
    split_ifs
    · exact .nil
    · cases k with
      | one =>
        exact ((((framed_setLineStart c _).append (framed_pair rfl rfl)).append (framed_sendByte c _ _)).append
          (framed_pair rfl rfl)).append (ih ..)
      | two => exact .nil
    · exact ((framed_sendByte c _ _).append (framed_pair rfl rfl)).append (ih ..)

theorem framed_render (c : Config) (t : Vector Byte 50) (present : Bool) (l o : Word) :
    Framed (render c t present l o) := by
  unfold render renderText
  split_ifs
  · exact ((((framed_normDiag l).append (.silent rfl .nil)).append (framed_setPosition c _ o)).append
      (framed_pair rfl rfl)).append (framed_renderLoop ..)
  · exact .silent rfl .nil

theorem framed_wake (c : Config) (b : Byte) : Framed (wake c b) := by
  unfold wake
  split
  · exact framed_sendFrame ..
  · exact framed_sendByte ..

theorem framed_initPass (k : BitVec 4) {emit : List Act} (h : Framed emit) (t : Nat) : Framed (initPass k emit t) :=
  .silent rfl (h.append (.silent rfl .nil))

theorem framed_initSequence (c : Config) : Framed (initSequence c) := by
  have hpass : ∀ p ∈ initPasses c, Framed p.2.1 := by
    simp [initPasses, framed_wake, sendInstruction, framed_sendByte]
  rw [initSequence_eq]
  exact .silent rfl ((framed_flatMap fun p hp => framed_initPass p.1 (hpass p hp) p.2.2).append
    (.silent rfl (.silent rfl (.silent rfl .nil))))

theorem framed_initActs (s : State) : Framed (initActs s) := by
  unfold initActs
  split_ifs
  · exact .silent rfl .nil
  · exact .silent rfl (.silent rfl .nil)
  · exact framed_initSequence s.cfg

theorem framed_whenReady (s : State) {body : List Act} (h : Framed body) : Framed (whenReady s body) := by
  unfold whenReady
  split_ifs
  · exact h
  · exact .silent rfl .nil

/-- What a row performs changes pins in whole frames only (R9, R110). -/
theorem framed_actsOf (i : Instr) (s : State) : Framed (actsOf i s) := by
  have hdone (st) : Framed [.done st] := .silent rfl .nil
  cases i with
  | init => exact framed_initActs s
  | clear | cursorOn | cursorOff => exact framed_whenReady s ((framed_sendByte ..).append (hdone _))
  | printLine1 | printLine2 | printAt => exact framed_whenReady s ((framed_render ..).append (hdone _))
  | write => exact framed_whenReady s (((framed_sendByte ..).append (framed_render ..)).append (hdone _))
  | cmdUnsupported | req3 => exact framed_whenReady s (hdone _)
  | lcdClear | lcdEntryMode | lcdDisplayControl | lcdFunctionSet | lcdAddressSet => exact framed_sendByte ..
  | frame => exact framed_sendFrame ..

theorem eventsOf_sendFrame (c : Config) (rs : Bool) (n : Nibble) (g : Diag) (as : List Act) :
    eventsOf g (sendFrame c rs n ++ as) = frameEvents c rs n ++ eventsOf g as := rfl

/-- The pin changes of whole frames are the writes of their latches (R111). -/
theorem Framed.pins_eq_latchWrites {as : List Act} (h : Framed as) (g : Diag) (p : Pins) :
    (eventsOf g as).filter Event.isPin = (latchStream p (eventsOf g as)).flatMap frameWrites := by
  induction h generalizing g p with
  | nil => rfl
  | frame c rs n _ ih =>
    rw [eventsOf_sendFrame, List.filter_append, frameEvents_writes, latchStream_append, latchStream_frame,
      List.flatMap_append, ih g (pinsAfter p (frameEvents c rs n)), List.flatMap_singleton]
  | @silent a as ha _ ih =>
    cases a with
    | pinWrite x v => cases ha
    | _ => exact ih _ p

/-- Settles O58: every row performs whole frames. -/
theorem linesAreWrittenOncePerLatch : Obligations.LinesAreWrittenOncePerLatch := by
  intro s i _
  refine ⟨_, exec_eq_performAll i s, ?_⟩
  rw [newEvents_of (performAll_trace _ _)]
  exact (framed_actsOf i s).pins_eq_latchWrites s.diag s.pins

end Sys2Proof.Proofs
end

section
/-! SUPPORT. Proofs of the statements about 20_memory.md: the display memory and what the LCD does with a byte (R61 to
R63), what feeds the ghost sink and what loses it (R61, R62, R65, R66), and how far apart the falling edges of E are
(R57). -/

namespace Sys2Proof.Proofs

open Sys2Proof.Machine Sys2Proof.Laws

/-! ### The display memory -/

/-- Settles O18: `write_wf` for the form, `read_write` for the cells. -/
theorem writeKeepsTheMemoryCanonical : Obligations.WriteKeepsTheMemoryCanonical := by
  intro m x v hm hx
  refine ⟨write_wf hm hx, fun a => ?_⟩
  rw [read_write hm]
  exact if_congr eq_comm rfl rfl

/-- The cells of R61 are two rows of forty. -/
theorem isCell_iff (a : Nat) : Memory.isCell a = true ↔ a ≤ 0x27 ∨ (0x40 ≤ a ∧ a ≤ 0x67) := by
  simp [Memory.isCell]

/-- Each row of cells is followed by the other (R63). -/
theorem advance_toNat {a : BitVec 7} (h : Memory.isCell a.toNat = true) : (Memory.advance a).toNat
    = if a.toNat = 0x27 then 0x40 else if a.toNat = 0x67 then 0 else a.toNat + 1 := by
  revert a
  decide

/-! ### What the LCD does with a byte -/

theorem instruction_clear (l : Lcd) : l.instruction 0x01#8 = some { l with ddram := [], ac := 0#7 } := rfl

theorem instruction_displayControlByte (l : Lcd) (d c b : Bool) :
    l.instruction (displayControlByte d c b) = some { l with disp := d, cur := c, blink := b } := by
  cases d <;> cases c <;> cases b <;> rfl

theorem instruction_entryModeByte (l : Lcd) (i sh : Bool) :
    l.instruction (entryModeByte i sh) = if i = true ∧ sh = false then some l else none := by
  cases i <;> cases sh <;> rfl

theorem instruction_functionSetByte (l : Lcd) (w n f : Bool) :
    l.instruction (functionSetByte w n f) = if w = false ∧ n = true ∧ f = false then some l else none := by
  cases w <;> cases n <;> cases f <;> rfl

/-- The fields of an address-set byte (R89). -/
theorem addressSetByte_fields : ∀ a : BitVec 7,
    (addressSetByte a).extractLsb' 7 1 = 1#1 ∧ (addressSetByte a).extractLsb' 0 7 = a := by
  decide

theorem instruction_addressSetByte (l : Lcd) (a : BitVec 7) :
    l.instruction (addressSetByte a) = if Memory.isCell a.toNat = true then some { l with ac := a } else none := by
  obtain ⟨htop, haddr⟩ := addressSetByte_fields a
  rw [Lcd.instruction, if_pos htop, haddr]

/-- A byte sent to a tracked LCD that waits for a high nibble is the LCD's step for it (R66). -/
theorem performAll_sendByte_sink {s : State} {l : Lcd} (hc : s.cfg.rsCommand ≠ s.cfg.rsData) (hs : s.sink = some l)
    (hl : l.half = none) (m : Mode) (b : Byte) : (performAll (sendByte s.cfg m b) s).sink = Lcd.byte m l b := by
  rw [performAll_sendByte, ← byteSink_aligned hc m b hl, ← hs]

/-- Settles O16: each row sends its byte, and the byte's fields choose the case of R62. -/
theorem lcdDoesWhatTheByteSays : Obligations.LcdDoesWhatTheByteSays := by
  intro s l hc hs hl after
  have sent {i : Instr} {b : Byte} {k : Option Lcd} (hi : encode i = .lcd8 b) (hk : l.instruction b = k) : after i k :=
    ⟨transmit b s, exec_of_lcd8 hi s, (performAll_sendByte_sink hc hs hl .COMMAND b).trans hk⟩
  refine ⟨sent rfl (instruction_clear l),
    fun d c b => sent rfl (instruction_displayControlByte l d c b),
    fun i sh => sent rfl (instruction_entryModeByte l i sh),
    fun w n f => sent rfl (instruction_functionSetByte l w n f),
    fun a => sent rfl ?_⟩
  rw [instruction_addressSetByte]
  exact if_congr (isCell_iff _) rfl rfl

/-- Settles O17: `sinkOk` puts the write address on a cell, where `Lcd.data` writes and moves on. -/
theorem dataByteStoresOneCell : Obligations.DataByteStoresOneCell := by
  intro s l b hc hs hl hok
  obtain ⟨hwf, hcell⟩ : Memory.wf l.ddram = true ∧ Memory.isCell l.ac.toNat = true := by simpa [sinkOk] using hok
  refine ⟨{ l with ddram := Memory.write l.ddram l.ac.toNat b, ac := Memory.advance l.ac }, ?_, ?_, fun a ha => ?_,
    advance_toNat hcell, rfl, rfl, rfl, hl⟩
  · rw [sendCharacter, performAll_sendByte_sink hc hs hl]
    exact if_pos hcell
  · rw [read_write hwf, if_pos rfl]
  · rw [read_write hwf, if_neg ha.symm]

/-! ### What feeds the sink -/

/-- Settles O19, by induction on the list: only a falling edge of E touches the sink, and it is the head of the latch
stream. -/
theorem sinkFollowsTheLatchStream : Obligations.SinkFollowsTheLatchStream := by
  intro as
  induction as with
  | nil => intros; rfl
  | cons a as ih =>
    intro s h
    obtain ⟨ha, has⟩ := List.forall_mem_cons.1 h
    rw [performAll_cons, ih _ has, perform_cfg]
    cases a with
    | pinWrite x v =>
      simp only [perform, pinWrite, eventsOf, latchStream]
      split_ifs
      · rfl
      · rfl
    | ghostReady => exact absurd rfl ha
    | _ => rfl

/-- Latches do not bring a lost LCD back (R62). -/
theorem latchesSink_none (c : Config) (ls : List Latch) : latchesSink c none ls = none := by
  induction ls with
  | nil => rfl
  | cons x ls ih => exact ih

theorem performAll_lost {as : List Act} (h : .ghostReady ∉ as) {s : State} (hs : s.sink = none) :
    (performAll as s).sink = none := by
  rw [sinkFollowsTheLatchStream as s (fun a ha he => h (he ▸ ha)), hs, latchesSink_none]

/-! ### What every row but INIT performs -/

/-- The primitive tells the host something. -/
def isReport : Act → Bool
  | .diag _ => true
  | .done _ => true
  | _ => false

/-- The list puts a byte stream on the lines under configuration `c`, with reports to the host before and after it. -/
def SendsBetweenReports (c : Config) (as : List Act) : Prop :=
  ∃ pre body post xs, as = pre ++ body ++ post ∧ pre.all isReport = true ∧ Sends c body xs ∧ post.all isReport = true

theorem sendsBetweenReports_of_sends {c : Config} {as : List Act} {xs : List Sent} (h : Sends c as xs) (st : Status) :
    SendsBetweenReports c (as ++ [.done st]) :=
  ⟨[], as, [.done st], xs, rfl, rfl, h, rfl⟩

theorem sendsBetweenReports_done (c : Config) (st : Status) : SendsBetweenReports c [.done st] :=
  sendsBetweenReports_of_sends (sends_nil c) st

theorem normDiag_isReport (l : Word) : (normDiag l).all isReport = true := by
  unfold normDiag
  split_ifs
  · rfl
  · rfl

/-- A print: the diagnostic, the stream of R169, `Done(OK)` (R163, R161). -/
theorem sendsBetweenReports_render (c : Config) (t : Vector Byte 50) (present : Bool) (l o : Word) :
    SendsBetweenReports c (render c t present l o ++ [.done .OK]) := by
  cases present with
  | false => exact ⟨[.diag .NULL_TEXT], [], [.done .OK], [], rfl, rfl, sends_nil c, rfl⟩
  | true =>
    rw [render, if_pos rfl, renderText_eq]
    exact ⟨_, _, _, _, rfl, normDiag_isReport l, sends_renderText c t l o, rfl⟩

/-- The render of a WRITE begins on line 1, which needs no diagnostic (R183). -/
theorem sends_render_lineOne (c : Config) (t : Vector Byte 50) :
    Sends c (render c t true 1#32 0#32) (renderSent .one 0#32 (textOf t)) := by
  rw [render, if_pos rfl, renderText_eq]
  exact sends_renderText c t 1#32 0#32

/-- What a row performs that is neither INIT nor a lone frame. -/
theorem actsOf_sendsBetweenReports {i : Instr} (hn : isInitRow i = false) (hf : ∀ r n, i ≠ .frame r n) (s : State) :
    SendsBetweenReports s.cfg (actsOf i s) := by
  have ready {body : List Act} (h : SendsBetweenReports s.cfg body) : SendsBetweenReports s.cfg (whenReady s body) := by
    unfold whenReady
    split_ifs
    · exact h
    · exact sendsBetweenReports_done _ _
  have lone (b : Byte) : SendsBetweenReports s.cfg (sendInstruction s.cfg b) :=
    ⟨[], _, [], _, (List.append_nil _).symm, rfl, sends_instr s.cfg b, rfl⟩
  cases i with
  | init => cases hn
  | clear | cursorOn | cursorOff => exact ready (sendsBetweenReports_of_sends (sends_instr _ _) _)
  | printLine1 | printLine2 | printAt => exact ready (sendsBetweenReports_render ..)
  | write => exact ready (sendsBetweenReports_of_sends ((sends_instr _ _).append (sends_render_lineOne _ _)) _)
  | cmdUnsupported | req3 => exact ready (sendsBetweenReports_done ..)
  | lcdClear | lcdEntryMode | lcdDisplayControl | lcdFunctionSet | lcdAddressSet => exact lone _
  | frame r n => exact absurd rfl (hf r n)

/-! ### A lost LCD -/

theorem streamSink_none (c : Config) (xs : List Sent) : streamSink c none xs = none := by
  induction xs with
  | nil => rfl
  | cons x xs ih => cases x <;> exact ih

theorem performAll_sends_lost {c : Config} {as : List Act} {xs : List Sent} (h : Sends c as xs) {s : State}
    (hc : s.cfg = c) (hs : s.sink = none) : (performAll as s).sink = none := by
  obtain ⟨l, n, i, e⟩ := h s hc
  rw [e]
  simp only [sendState, hs, streamSink_none]

theorem ghostReady_not_mem_reports {as : List Act} (h : as.all isReport = true) : .ghostReady ∉ as :=
  fun hm => absurd (List.all_eq_true.1 h _ hm) Bool.false_ne_true

theorem SendsBetweenReports.lost {as : List Act} {s : State} (h : SendsBetweenReports s.cfg as) (hs : s.sink = none) :
    (performAll as s).sink = none := by
  obtain ⟨pre, body, post, xs, rfl, hpre, hbody, hpost⟩ := h
  have h1 := performAll_lost (ghostReady_not_mem_reports hpre) hs
  have h2 := performAll_sends_lost hbody (performAll_cfg pre s) h1
  rw [performAll_append, performAll_append]
  exact performAll_lost (ghostReady_not_mem_reports hpost) h2

/-- No row but INIT recovers a lost LCD (R62). -/
theorem actsOf_lost {i : Instr} (hn : isInitRow i = false) {s : State} (hs : s.sink = none) :
    (performAll (actsOf i s) s).sink = none := by
  by_cases hf : ∃ r n, i = .frame r n
  · obtain ⟨r, n, rfl⟩ := hf
    exact performAll_lost (by simp [actsOf, sendFrame]) hs
  · exact (actsOf_sendsBetweenReports hn (fun r n he => hf ⟨r, n, he⟩) s).lost hs

theorem step_of_lcdLost {s : State} {rest : List Input} (h : s.inputs = .lcdLost :: rest) :
    step s = .next (loseLcd { s with inputs := rest }) := by
  simp only [step, h]

/-- Settles O21: only the ghost's own step makes a lost LCD known. It is INIT's alone, the loss strikes it from what is
left to do, and the events of a running request do not bring it back. -/
theorem lostLcdStaysLostUntilInit : Obligations.LostLcdStaysLostUntilInit := by
  refine ⟨?otherRows, ?theLoss, ?running⟩
  case otherRows => exact fun i s hn hs => ⟨_, exec_eq_performAll i s, actsOf_lost hn hs⟩
  case theLoss =>
    intro s rest h
    exact ⟨_, step_of_lcdLost h, rfl, by simp, fun g => eventsOf_strike g s.pending⟩
  case running =>
    intro s t hu hb hg hs h
    rw [step_of_busy hb hu h]
    exact ⟨performAll_lost (fun hm => hg (mem_of_mem_emitted hm)) hs, fun hm => hg (mem_of_mem_left hm)⟩

/-! ### INIT and the one-byte commands on the display -/

theorem exec_init_admitted {s : State} (code : BitVec 8) (hl : s.lifecycle = .UNINIT) (hk : s.setupOk = true) :
    exec (.init code) s = .next (performAll (initSequence s.cfg) s) := by
  rw [exec_eq_performAll]
  simp [actsOf, initActs, hl, hk]

/-- A completed INIT leaves what R65 says, whatever the LCD was before. -/
theorem initSequence_sink (s : State) : (performAll (initSequence s.cfg) s).sink = sinkAfterInit s.cfg := by
  rw [performAll_initSequence]

/-- Settles O25: the sink after INIT is `sinkAfterInit`, whose condition is the premises of R65 and R241. -/
theorem initLeavesTheLcdKnown : Obligations.InitLeavesTheLcdKnown := by
  intro s code hl hk
  have hexec := exec_init_admitted code hl hk
  have hsink := initSequence_sink s
  constructor
  · intro hw hi hm
    refine ⟨_, Lcd.afterInit, hexec, ?_, fun a => rfl, rfl, rfl, rfl, rfl, rfl⟩
    rw [hsink, sinkAfterInit, if_pos ⟨hw, hi, hm⟩]
  · intro hw
    refine ⟨_, hexec, ?_⟩
    rw [hsink, sinkAfterInit, if_neg (by simp [hw])]

/-- A request that sends one command byte, in `READY`, to a tracked LCD that waits for a high nibble. -/
theorem oneByteCommand_sink {s : State} {l : Lcd} (hr : s.lifecycle = .READY) (hc : s.cfg.rsCommand ≠ s.cfg.rsData)
    (hs : s.sink = some l) (hl : l.half = none) (b : Byte) :
    (performAll (whenReady s (sendInstruction s.cfg b ++ [.done .OK])) s).sink = l.instruction b := by
  rw [whenReady, if_pos hr, performAll_append]
  exact performAll_sendByte_sink hc hs hl .COMMAND b

/-- Settles O27: the LCD's step for the bytes 0x01, 0x0F and 0x0C. -/
theorem oneByteCommandsOnTheDisplay : Obligations.OneByteCommandsOnTheDisplay := by
  intro s l hr hc hclear hon hoff hs hl
  have hsink := oneByteCommand_sink hr hc hs hl
  refine ⟨⟨_, { l with ddram := [], ac := 0#7 }, rfl, ?_, fun a => rfl, rfl, rfl, rfl, rfl⟩,
    ⟨_, rfl, ?_⟩, ⟨_, rfl, ?_⟩⟩
  · rw [clearActs, hsink, hclear, instruction_clear]
  · rw [cursorOnActs, hsink, hon]
    exact instruction_displayControlByte l true true true
  · rw [cursorOffActs, hsink, hoff]
    exact instruction_displayControlByte l true false false

/-! ### The falling edges of E -/

/-- Every falling edge of E in the trace comes at least `d` after the one before it, or after the trace's start, whatever
the level of E and the time gone by were there. -/
def Spaced (d : Nat) (es : List Event) : Prop := ∀ e acc, ∀ g ∈ fallGaps e acc es, d ≤ g

/-- The gaps of a trace are those of its beginning and then those of its end from where the beginning leaves E. -/
theorem fallGaps_append (e : Bool) (acc : Nat) (xs : List Event) :
    ∃ e' acc', ∀ ys, fallGaps e acc (xs ++ ys) = fallGaps e acc xs ++ fallGaps e' acc' ys := by
  induction xs generalizing e acc with
  | nil => exact ⟨e, acc, fun _ => rfl⟩
  | cons x xs ih =>
    cases x with
    | pin p v =>
      simp only [List.cons_append, fallGaps]
      split_ifs
      · obtain ⟨e', acc', h⟩ := ih false 0
        exact ⟨e', acc', fun ys => congrArg (acc :: ·) (h ys)⟩
      · exact ih v acc
      · exact ih e acc
    | delay t => exact ih e (acc + t)
    | diag | done => exact ih e acc
    | reset => exact ih false acc

theorem Spaced.append {d : Nat} {xs ys : List Event} (hx : Spaced d xs) (hy : Spaced d ys) : Spaced d (xs ++ ys) := by
  intro e acc
  obtain ⟨e', acc', h⟩ := fallGaps_append e acc xs
  rw [h, List.forall_mem_append]
  exact ⟨hx e acc, hy e' acc'⟩

theorem spaced_flatMap {α : Type} {d : Nat} {f : α → List Event} {xs : List α} (h : ∀ x ∈ xs, Spaced d (f x)) :
    Spaced d (xs.flatMap f) := by
  induction xs with
  | nil => exact fun _ _ => List.forall_mem_nil _
  | cons x xs ih =>
    obtain ⟨hx, hxs⟩ := List.forall_mem_cons.1 h
    exact hx.append (ih hxs)

/-- Where no line is written, E does not fall. -/
theorem spaced_of_no_pin (d : Nat) {es : List Event} (h : ∀ x ∈ es, x.isPin = false) : Spaced d es := by
  induction es with
  | nil => exact fun _ _ => List.forall_mem_nil _
  | cons x es ih =>
    obtain ⟨hx, hes⟩ := List.forall_mem_cons.1 h
    intro e acc
    cases x with
    | pin => cases hx
    | _ => exact ih hes _ _

/-- The least distance of R57. -/
def edgeDistance (c : Config) : Nat := c.tRecovery + c.tSetup + c.tPulse

/-- A frame waits and sets the lines up before it pulses E (R110). -/
theorem spaced_frame (c : Config) (rs : Bool) (n : Nibble) : Spaced (edgeDistance c) (frameEvents c rs n) := by
  intro e acc g hg
  rw [← List.append_nil (frameEvents c rs n), fallGaps_frame] at hg
  obtain rfl : g = acc + c.tRecovery + c.tSetup + c.tPulse := by simpa [fallGaps] using hg
  unfold edgeDistance
  omega

theorem spaced_sent (c : Config) (x : Sent) : Spaced (edgeDistance c) (sentEvents c x) := by
  cases x with
  | wake n => exact spaced_frame c _ n
  | instr | char => exact (spaced_frame c _ _).append (spaced_frame c _ _)

theorem spaced_stream (c : Config) (xs : List Sent) : Spaced (edgeDistance c) (streamEvents c xs) :=
  spaced_flatMap fun x _ => spaced_sent c x

theorem spaced_init (c : Config) : Spaced (edgeDistance c) (initEvents c) := by
  have hdelay (t : Nat) : Spaced (edgeDistance c) [.delay t] := spaced_of_no_pin _ (by simp [Event.isPin])
  exact (hdelay _).append (spaced_flatMap fun x _ => (spaced_sent c x.1).append (hdelay x.2))

/-- The events of a list that sends a byte stream are those of the stream, whatever `diag` is. -/
theorem eventsOf_of_sends {c : Config} {as : List Act} {xs : List Sent} (h : Sends c as xs) (g : Diag) :
    eventsOf g as = streamEvents c xs := by
  obtain ⟨l, n, i, e⟩ := h { State.reset with cfg := c, diag := g } rfl
  simpa [sendState, State.reset] using (performAll_trace as _).symm.trans (congrArg State.trace e)

theorem eventsOf_initSequence (c : Config) (g : Diag) :
    eventsOf g (initSequence c) = initEvents c ++ [.done .OK g] := by
  have e := performAll_initSequence { State.reset with cfg := c, diag := g }
  simpa [State.reset] using (performAll_trace _ _).symm.trans (congrArg State.trace e)

theorem eventsOf_reports_no_pin {as : List Act} (h : as.all isReport = true) (g : Diag) :
    ∀ x ∈ eventsOf g as, x.isPin = false := by
  induction as generalizing g with
  | nil => exact List.forall_mem_nil _
  | cons a as ih =>
    obtain ⟨ha, has⟩ := Bool.and_eq_true_iff.1 h
    cases a with
    | diag | done => exact List.forall_mem_cons.2 ⟨rfl, ih has _⟩
    | _ => cases ha

theorem SendsBetweenReports.spaced {c : Config} {as : List Act} (h : SendsBetweenReports c as) (g : Diag) :
    Spaced (edgeDistance c) (eventsOf g as) := by
  obtain ⟨pre, body, post, xs, rfl, hpre, hbody, hpost⟩ := h
  rw [eventsOf_append, eventsOf_append, eventsOf_of_sends hbody]
  exact ((spaced_of_no_pin _ (eventsOf_reports_no_pin hpre _)).append (spaced_stream c xs)).append
    (spaced_of_no_pin _ (eventsOf_reports_no_pin hpost _))

theorem spaced_initActs (s : State) (g : Diag) : Spaced (edgeDistance s.cfg) (eventsOf g (initActs s)) := by
  have hdone (st : Status) : Spaced (edgeDistance s.cfg) [.done st g] := spaced_of_no_pin _ (by simp [Event.isPin])
  unfold initActs
  split_ifs
  · exact hdone .BAD_STATE
  · exact hdone .SETUP_FAILED
  · rw [eventsOf_initSequence]
    exact (spaced_init s.cfg).append (hdone .OK)

theorem spaced_actsOf {i : Instr} (hi : isRequestRow i = true) (s : State) (g : Diag) :
    Spaced (edgeDistance s.cfg) (eventsOf g (actsOf i s)) := by
  cases hn : isInitRow i with
  | false => exact (actsOf_sendsBetweenReports hn (fun r n he => by subst he; cases hi) s).spaced g
  | true =>
    cases i with
    | init => exact spaced_initActs s g
    | _ => cases hn

/-- Settles O41: each falling edge is the end of a frame, and a frame takes that long to reach it. -/
theorem latchesAreSpacedApart : Obligations.LatchesAreSpacedApart := by
  intro s i hi
  refine ⟨_, exec_eq_performAll i s, ?_⟩
  rw [newEvents_of (performAll_trace _ _)]
  exact spaced_actsOf hi s s.diag s.pins.e 0

end Sys2Proof.Proofs
end

section
/-! SUPPORT. Proofs of the statements about 30_encoding.md: the decoder and the encoder undo each other (R81, R83, R84, R87,
R89), what the rows of the output formats send (R87, R89), and which bytes a request can emit (R90). -/

namespace Sys2Proof.Proofs

open Sys2Proof.Machine Sys2Proof.Laws

/-! ### Request words -/

/-- A request word is its kind and its code (R81). -/
theorem req10_eq_append (w : BitVec 10) : ∃ (k : BitVec 2) (c : BitVec 8), w = k ++ c :=
  ⟨_, _, (recordWith_word State.reset w).symm⟩

/-- The kind of a request word chooses the row, or the compare of its code (R81, R84). -/
theorem decodeReq10_append (k : BitVec 2) (c : BitVec 8) :
    decodeReq10 (k ++ c) =
      if k = 0#2 then .init c else if k = 1#2 then decodeCommand c else if k = 2#2 then .write c else .req3 c := by
  have hk : (k ++ c).extractLsb' 8 2 = k := BitVec.extractLsb'_append_eq_left
  have hc : (k ++ c).extractLsb' 0 8 = c := BitVec.extractLsb'_append_eq_right
  simp only [decodeReq10, hk, hc]

@[simp] theorem decodeReq10_init (c : BitVec 8) : decodeReq10 (0#2 ++ c) = .init c := decodeReq10_append 0#2 c

@[simp] theorem decodeReq10_cmd (c : BitVec 8) : decodeReq10 (1#2 ++ c) = decodeCommand c := decodeReq10_append 1#2 c

@[simp] theorem decodeReq10_write (c : BitVec 8) : decodeReq10 (2#2 ++ c) = .write c := decodeReq10_append 2#2 c

@[simp] theorem decodeReq10_req3 (c : BitVec 8) : decodeReq10 (3#2 ++ c) = .req3 c := decodeReq10_append 3#2 c

/-- A code beside the six of R83 is an unsupported command (R84). -/
theorem decodeCommand_of_other {c : BitVec 8} (h : commandCodes.contains c = false) :
    decodeCommand c = .cmdUnsupported c := by
  simp only [commandCodes, List.contains_eq_mem, List.mem_cons, List.not_mem_nil, or_false, Bool.decide_or,
    Bool.or_eq_false_iff, decide_eq_false_iff_not] at h
  simp [decodeCommand, h]

/-- A command code's row is well formed and has the word of kind 1 with that code (R83, R84). -/
theorem decodeCommand_encodes (c : BitVec 8) :
    (decodeCommand c).wellFormed = true ∧ encode (decodeCommand c) = .req10 (1#2 ++ c) := by
  cases h : commandCodes.contains c with
  | false => simp only [decodeCommand_of_other h, Instr.wellFormed, encode, h, Bool.not_false, and_self]
  | true =>
    simp only [commandCodes, List.contains_iff_mem, List.mem_cons, List.not_mem_nil, or_false] at h
    rcases h with rfl | rfl | rfl | rfl | rfl | rfl <;> exact ⟨rfl, rfl⟩

theorem decodeReq10_encodes (w : BitVec 10) :
    (decodeReq10 w).wellFormed = true ∧ encode (decodeReq10 w) = .req10 w := by
  obtain ⟨k, c, rfl⟩ := req10_eq_append w
  have kinds : ∀ k : BitVec 2, k = 0#2 ∨ k = 1#2 ∨ k = 2#2 ∨ k = 3#2 := by decide
  rcases kinds k with rfl | rfl | rfl | rfl
  · rw [decodeReq10_init]
    exact ⟨rfl, rfl⟩
  · rw [decodeReq10_cmd]
    exact decodeCommand_encodes c
  · rw [decodeReq10_write]
    exact ⟨rfl, rfl⟩
  · rw [decodeReq10_req3]
    exact ⟨rfl, rfl⟩

/-! ### LCD bytes and frames -/

theorem decodeLcd8_addressSetByte (a : BitVec 7) : decodeLcd8 (addressSetByte a) = .ok (.lcdAddressSet a) := by
  obtain ⟨htop, haddr⟩ := addressSetByte_fields a
  rw [decodeLcd8, if_pos htop, haddr]

/-- The row of an LCD byte has that byte (R89). -/
theorem encode_of_decodeLcd8 {b : Byte} {i : Instr} (h : decodeLcd8 b = .ok i) : encode i = .lcd8 b := by
  have hb := decodeLcd8_encodes b
  rw [h] at hb
  exact of_decide_eq_true hb

/-- Every term with an LCD byte as its word is well formed: R84 restricts a request row alone. -/
theorem wellFormed_of_lcd8 {i : Instr} {b : Byte} (h : encode i = .lcd8 b) : i.wellFormed = true := by
  cases i with
  | cmdUnsupported => cases h
  | _ => rfl

theorem decodeFrame5_append : ∀ (r : Bool) (n : Nibble), decodeFrame5 (BitVec.ofBool r ++ n) = .frame r n := by
  decide

theorem encode_decodeFrame5 : ∀ w : BitVec 5, encode (decodeFrame5 w) = .frame5 w := by
  decide

/-! ### The decoder and the encoder -/

/-- Settles O2, row by row: the kind of a request word, the compare of its code, the pattern of an LCD byte, the fields of
a frame. -/
theorem decodeOfEncodeIsTheInstruction : Obligations.DecodeOfEncodeIsTheInstruction := by
  intro i hi
  cases i with
  | init c => exact congrArg Except.ok (decodeReq10_init c)
  | write c => exact congrArg Except.ok (decodeReq10_write c)
  | req3 c => exact congrArg Except.ok (decodeReq10_req3 c)
  | cmdUnsupported c =>
    have hc : commandCodes.contains c = false := by simpa only [Instr.wellFormed, Bool.not_eq_true'] using hi
    exact congrArg Except.ok ((decodeReq10_cmd c).trans (decodeCommand_of_other hc))
  | clear | printLine1 | printLine2 | printAt | cursorOn | cursorOff | lcdClear => rfl
  | lcdEntryMode i s => cases i <;> cases s <;> rfl
  | lcdDisplayControl d c b => cases d <;> cases c <;> cases b <;> rfl
  | lcdFunctionSet w n f => cases w <;> cases n <;> cases f <;> rfl
  | lcdAddressSet a => exact decodeLcd8_addressSetByte a
  | frame r n => exact congrArg Except.ok (decodeFrame5_append r n)

/-- Settles O3, format by format. -/
theorem encodeOfDecodeIsTheWord : Obligations.EncodeOfDecodeIsTheWord := by
  intro e i h
  cases e with
  | req10 w =>
    obtain rfl : decodeReq10 w = i := Except.ok.inj h
    exact decodeReq10_encodes w
  | lcd8 b =>
    have hb : encode i = .lcd8 b := encode_of_decodeLcd8 h
    exact ⟨wellFormed_of_lcd8 hb, hb⟩
  | frame5 w =>
    obtain rfl : decodeFrame5 w = i := Except.ok.inj h
    exact ⟨rfl, encode_decodeFrame5 w⟩

/-- Settles O1: the decoder, computed on each word. -/
theorem specWordsDecode : Obligations.SpecWordsDecode := by
  unfold Obligations.SpecWordsDecode
  decide

/-- Settles O4: no row reads the code it carries, and every code beside the six decodes to one row. -/
theorem ignoredCodeSelectsTheSameRequest : Obligations.IgnoredCodeSelectsTheSameRequest := by
  intro c d s
  simp only [decodeReq10_init, decodeReq10_cmd, decodeReq10_write, decodeReq10_req3]
  refine ⟨rfl, rfl, rfl, fun hc hd => ?_⟩
  rw [decodeCommand_of_other hc, decodeCommand_of_other hd]
  rfl

/-! ### The rows of the output formats -/

/-- Settles O12: the row performs one frame. -/
theorem frameRowSendsOneFrame : Obligations.FrameRowSendsOneFrame :=
  fun r n s => congrArg Host.Outcome.next (performAll_sendFrame r n s)

theorem addressSetByte_eq_ofNat : ∀ a : BitVec 7, addressSetByte a = BitVec.ofNat 8 (128 + a.toNat) := by
  decide

/-- Settles O15: each row sends the byte that is its word, and that byte is the number given. -/
theorem lcdRowsSendTheirBytes : Obligations.LcdRowsSendTheirBytes := by
  intro s sent
  have row {i : Instr} {b : Nat} (h : encode i = .lcd8 (BitVec.ofNat 8 b)) : exec i s = sent b :=
    (exec_of_lcd8 h s).trans (congrArg Host.Outcome.next (performAll_sendByte .COMMAND _ s))
  refine ⟨row rfl, fun i sh => row ?_, fun d c b => row ?_, fun w n f => row ?_,
    fun a => row (congrArg Encoded.lcd8 (addressSetByte_eq_ofNat a))⟩
  · cases i <;> cases sh <;> rfl
  · cases d <;> cases c <;> cases b <;> rfl
  · cases w <;> cases n <;> cases f <;> rfl

/-! ### The byte stream of a request -/

/-- The latches of one element of a byte stream (R88, R12(c)). -/
def sentLatches (c : Config) : Sent → List Latch
  | .instr b => [⟨c.rsCommand, b.extractLsb' 4 4⟩, ⟨c.rsCommand, b.extractLsb' 0 4⟩]
  | .char b => [⟨c.rsData, b.extractLsb' 4 4⟩, ⟨c.rsData, b.extractLsb' 0 4⟩]
  | .wake n => [⟨c.rsCommand, n⟩]

theorem latchStream_sent (c : Config) (p : Pins) (x : Sent) : latchStream p (sentEvents c x) = sentLatches c x := by
  cases x with
  | instr b => exact latchStream_byte c p .COMMAND b
  | char b => exact latchStream_byte c p .DATA b
  | wake n => exact latchStream_frame c p c.rsCommand n

theorem latchStream_stream (c : Config) (p : Pins) (xs : List Sent) :
    latchStream p (streamEvents c xs) = xs.flatMap (sentLatches c) := by
  induction xs generalizing p with
  | nil => rfl
  | cons x xs ih =>
    rw [List.flatMap_cons, ← latchStream_sent c p x, ← ih (pinsAfter p (sentEvents c x)), ← latchStream_append]
    rfl

/-- Where no line is written, nothing is latched. -/
theorem latchStream_of_no_pin {es : List Event} (h : ∀ x ∈ es, x.isPin = false) (p : Pins) : latchStream p es = [] := by
  induction es generalizing p with
  | nil => rfl
  | cons x es ih =>
    obtain ⟨hx, hes⟩ := List.forall_mem_cons.1 h
    cases x with
    | pin => cases hx
    | _ => exact ih hes _

/-- Whole bytes are read back from their latches, the two RS levels being told apart (R12(b), R6). -/
theorem pairLatches_sentLatches {c : Config} (h : c.rsCommand ≠ c.rsData) {xs : List Sent} (hw : ∀ n, .wake n ∉ xs) :
    pairLatches c (xs.flatMap (sentLatches c)) = some xs := by
  have hcommand : modeOf c c.rsCommand = .COMMAND := modeOf_rsLevel h .COMMAND
  have hdata : modeOf c c.rsData = .DATA := modeOf_rsLevel h .DATA
  induction xs with
  | nil => rfl
  | cons x xs ih =>
    have ih := ih fun n hn => hw n (List.mem_cons_of_mem _ hn)
    cases x with
    | instr b => simp [sentLatches, pairLatches, ih, hcommand, nibbles_append, Sent.ofByte]
    | char b => simp [sentLatches, pairLatches, ih, hdata, nibbles_append, Sent.ofByte]
    | wake n => exact absurd List.mem_cons_self (hw n)

/-- Under configuration `c` the LCD latches from the primitives `as` the byte stream `xs` and nothing else, whatever the
lines and `diag` were. -/
def Latches (c : Config) (as : List Act) (xs : List Sent) : Prop :=
  ∀ (p : Pins) (g : Diag), latchStream p (eventsOf g as) = xs.flatMap (sentLatches c)

theorem Latches.append {c : Config} {as bs : List Act} {xs ys : List Sent} (h1 : Latches c as xs)
    (h2 : Latches c bs ys) : Latches c (as ++ bs) (xs ++ ys) := by
  intro p g
  rw [eventsOf_append, latchStream_append, h1, h2, List.flatMap_append]

theorem latches_of_sends {c : Config} {as : List Act} {xs : List Sent} (h : Sends c as xs) : Latches c as xs := by
  intro p g
  rw [eventsOf_of_sends h, latchStream_stream]

theorem latches_of_reports (c : Config) {as : List Act} (h : as.all isReport = true) : Latches c as [] :=
  fun p g => latchStream_of_no_pin (eventsOf_reports_no_pin h g) p

/-- `Done` is no part of the byte stream. -/
theorem Latches.done {c : Config} {as : List Act} {xs : List Sent} (h : Latches c as xs) (st : Status) :
    Latches c (as ++ [.done st]) xs := by
  have := h.append (latches_of_reports c (as := [.done st]) rfl)
  rwa [List.append_nil] at this

/-- The byte stream of `render`: nothing for an absent text, else that of R169 (R161). -/
def printSent (t : Vector Byte 50) (present : Bool) (l o : Word) : List Sent :=
  if present then renderSent (norm l) o (textOf t) else []

theorem latches_render (c : Config) (t : Vector Byte 50) (present : Bool) (l o : Word) :
    Latches c (render c t present l o) (printSent t present l o) := by
  cases present with
  | false => exact latches_of_reports c rfl
  | true =>
    rw [render, if_pos rfl, renderText_eq]
    exact (latches_of_reports c (normDiag_isReport l)).append (latches_of_sends (sends_renderText c t l o))

/-- The byte stream of a request other than INIT that is admitted in state `s` (R176 to R183). -/
def admittedSent (s : State) : Instr → List Sent
  | .clear => [.instr s.cfg.bClear]
  | .printLine1 => printSent s.text s.textPresent 1#32 0#32
  | .printLine2 => printSent s.text s.textPresent 2#32 0#32
  | .printAt => printSent s.text s.textPresent s.line s.offset
  | .cursorOn => [.instr s.cfg.bCursorOn]
  | .cursorOff => [.instr s.cfg.bCursorOff]
  | .write _ => .instr s.cfg.bClear :: printSent s.text true 1#32 0#32
  | _ => []

/-- The byte stream of a request other than INIT: outside `READY` it is refused (R203). -/
def requestSent (s : State) (i : Instr) : List Sent :=
  if s.lifecycle = .READY then admittedSent s i else []

theorem latches_actsOf {i : Instr} (hi : isRequestRow i = true) (hn : isInitRow i = false) (s : State) :
    Latches s.cfg (actsOf i s) (requestSent s i) := by
  have ready {body : List Act} (h : Latches s.cfg body (admittedSent s i)) :
      Latches s.cfg (whenReady s body) (requestSent s i) := by
    unfold whenReady requestSent
    split_ifs
    · exact h
    · exact latches_of_reports s.cfg rfl
  have instr (b : Byte) : Latches s.cfg (sendInstruction s.cfg b) [.instr b] := latches_of_sends (sends_instr s.cfg b)
  cases i with
  | init => cases hn
  | clear | cursorOn | cursorOff => exact ready ((instr _).done .OK)
  | printLine1 | printLine2 | printAt => exact ready ((latches_render _ _ _ _ _).done .OK)
  | write => exact ready (((instr _).append (latches_render _ _ _ _ _)).done .OK)
  | cmdUnsupported | req3 => exact ready (latches_of_reports s.cfg rfl)
  | _ => cases hi

/-! ### The bytes a request can emit -/

/-- The element is a data byte other than 0x00 or a command byte of which `P` is true, and no wake nibble. -/
def sentAmong (P : Byte → Prop) : Sent → Prop
  | .instr b => P b
  | .char b => b ≠ 0#8
  | .wake _ => False

/-- Every element of the byte stream is of that kind. -/
def OnlyEmits (P : Byte → Prop) (xs : List Sent) : Prop := ∀ x ∈ xs, sentAmong P x

theorem OnlyEmits.mono {P Q : Byte → Prop} {xs : List Sent} (h : OnlyEmits P xs) (hPQ : ∀ b, P b → Q b) :
    OnlyEmits Q xs := by
  intro x hx
  have hx := h x hx
  cases x with
  | instr b => exact hPQ b hx
  | char b => exact hx
  | wake n => exact hx

theorem onlyEmits_nil (P : Byte → Prop) : OnlyEmits P [] := List.forall_mem_nil _

theorem onlyEmits_instr {P : Byte → Prop} {b : Byte} {xs : List Sent} (hb : P b) (h : OnlyEmits P xs) :
    OnlyEmits P (.instr b :: xs) :=
  List.forall_mem_cons.2 ⟨hb, h⟩

theorem OnlyEmits.append {P : Byte → Prop} {xs ys : List Sent} (hx : OnlyEmits P xs) (hy : OnlyEmits P ys) :
    OnlyEmits P (xs ++ ys) :=
  List.forall_mem_append.2 ⟨hx, hy⟩

theorem onlyEmits_chars (P : Byte → Prop) {t : List Byte} (h : ∀ b ∈ t, b ≠ 0#8) : OnlyEmits P (t.map Sent.char) := by
  intro x hx
  obtain ⟨b, hb, rfl⟩ := List.mem_map.1 hx
  exact h b hb

/-- A render emits one address byte, and the start of line 2 where line 1 overflows (R169). -/
theorem renderSent_onlyEmits (k : Line) (o : Word) {t : List Byte} (h : ∀ b ∈ t, b ≠ 0#8) :
    OnlyEmits (fun b => b = addressByte k o ∨ (k = .one ∧ b = 0xC0#8)) (renderSent k o t) := by
  have first (n : Nat) : ∀ b ∈ t.take n, b ≠ 0#8 := fun b hb => h b (List.mem_of_mem_take hb)
  have second (n m : Nat) : ∀ b ∈ (t.drop n).take m, b ≠ 0#8 :=
    fun b hb => h b (List.mem_of_mem_drop (List.mem_of_mem_take hb))
  cases k with
  | one =>
    unfold renderSent
    split_ifs
    · exact onlyEmits_instr (.inl rfl) (onlyEmits_chars _ h)
    · exact (onlyEmits_instr (.inl rfl) (onlyEmits_chars _ (first _))).append
        (onlyEmits_instr (.inr ⟨rfl, rfl⟩) (onlyEmits_chars _ (second _ _)))
  | two => exact onlyEmits_instr (.inl rfl) (onlyEmits_chars _ (first _))

theorem printSent_onlyEmits (t : Vector Byte 50) (present : Bool) (l o : Word) :
    OnlyEmits (fun b => b = addressByte (norm l) o ∨ (norm l = .one ∧ b = 0xC0#8)) (printSent t present l o) := by
  unfold printSent
  split_ifs
  · exact renderSent_onlyEmits _ _ (textOf_ne_zero t)
  · exact onlyEmits_nil _

/-- The address byte on natural numbers (R154). -/
theorem addressByte_toNat (k : Line) (o : Word) : (addressByte k o).toNat = ((base k).toNat + o.toNat) % 256 :=
  BitVec.toNat_ofNat ..

/-- Every admitted request emits command bytes of its row in R90 only. -/
theorem admittedSent_onlyEmits (s : State) (i : Instr) :
    OnlyEmits (mayEmit s.cfg s.offset i) (admittedSent s i) := by
  cases i with
  | clear | cursorOn | cursorOff => exact onlyEmits_instr rfl (onlyEmits_nil _)
  | printLine1 => exact (printSent_onlyEmits _ _ _ _).mono fun b hb => hb.imp_right And.right
  | printLine2 => exact (printSent_onlyEmits _ _ _ _).mono fun b hb => hb.resolve_right fun h => absurd h.1 (by decide)
  | printAt =>
    refine (printSent_onlyEmits _ _ _ _).mono fun b hb => ?_
    rcases hb with rfl | ⟨_, hwrap⟩
    · right
      rw [addressByte_toNat]
      cases norm s.line with
      | one => exact .inl rfl
      | two => exact .inr rfl
    · exact .inl hwrap
  | write c =>
    exact onlyEmits_instr (.inl rfl) ((printSent_onlyEmits _ _ _ _).mono fun b hb => .inr (hb.imp_right And.right))
  | _ => exact onlyEmits_nil _

theorem requestSent_onlyEmits (s : State) (i : Instr) : OnlyEmits (mayEmit s.cfg s.offset i) (requestSent s i) := by
  unfold requestSent
  split_ifs
  · exact admittedSent_onlyEmits s i
  · exact onlyEmits_nil _

/-- The byte stream of a request other than INIT (R12(b)). -/
theorem byteStream_request {i : Instr} (hi : isRequestRow i = true) (hn : isInitRow i = false) {s : State}
    (hc : s.cfg.rsCommand ≠ s.cfg.rsData) :
    byteStream s.cfg s.pins (s.newEvents (performAll (actsOf i s) s)) = some (requestSent s i) := by
  rw [newEvents_of (performAll_trace _ _), byteStream, latches_actsOf hi hn s]
  exact pairLatches_sentLatches hc fun n hw => requestSent_onlyEmits s i _ hw

/-- Settles O59: the byte stream is `requestSent`, whose bytes are those of the row. -/
theorem emittedBytesAreAClosedSet : Obligations.EmittedBytesAreAClosedSet := by
  intro s i hi hn hc
  have hemits := requestSent_onlyEmits s i
  exact ⟨_, _, exec_eq_performAll i s, byteStream_request hi hn hc, fun b hb => hemits _ hb, fun b hb => hemits _ hb⟩

end Sys2Proof.Proofs
end

section
/-! SUPPORT. Proofs of the statements about 40_nibble_transmitter.md: what `sendNibble` leaves (R110, R115), that the lines then
keep their levels (R21), and its counts (R116). -/

namespace Sys2Proof.Proofs

open Sys2Proof.Machine Sys2Proof.Laws

/-! ### The lines keep their levels -/

/-- A line changes by a `PinWrite` only (R9, R21). -/
theorem perform_pins_of_not_pinWrite {a : Act} (h : a.isPinWrite = false) (s : State) :
    (perform a s).pins = s.pins := by
  cases a with
  | pinWrite x v => cases h
  | _ => rfl

theorem performAll_pins_of_no_pinWrite {as : List Act} (h : ∀ a ∈ as, a.isPinWrite = false) (s : State) :
    (performAll as s).pins = s.pins := by
  induction as generalizing s with
  | nil => rfl
  | cons a as ih =>
    obtain ⟨ha, has⟩ := List.forall_mem_cons.1 h
    exact (ih has (perform a s)).trans (perform_pins_of_not_pinWrite ha s)

/-- Settles O11: `sendNibble` is one frame at its mode's RS level, and primitives that write no line leave the lines alone. -/
theorem stateAfterSendNibble : Obligations.StateAfterSendNibble :=
  fun s n m => ⟨performAll_sendFrame (rsLevel s.cfg m) n s, fun _ h => performAll_pins_of_no_pinWrite h _⟩

/-! ### The counts of a frame -/

/-- The events of a frame that write no line are its four delays (R110). -/
@[simp] theorem frameEvents_nonPins (c : Config) (rs : Bool) (n : Nibble) :
    (frameEvents c rs n).countP (fun e => !e.isPin) = 4 := rfl

@[simp] theorem frameEvents_rises (c : Config) (rs : Bool) (n : Nibble) :
    (frameEvents c rs n).count (.pin .E true) = 1 := by simp [frameEvents]

theorem tNib_default : tNib Config.default = 2010000 := rfl

theorem newEvents_sendNibble (s : State) (n : Nibble) (m : Mode) :
    s.newEvents (performAll (sendNibble s.cfg n m) s) = frameEvents s.cfg (rsLevel s.cfg m) n :=
  newEvents_of (performAll_trace (sendNibble s.cfg n m) s)

/-- Settles O13: what `sendNibble` adds to the trace is the events of one frame, counted. -/
theorem sendNibbleCounts : Obligations.SendNibbleCounts := by
  intro s n m t es
  have hes : es = frameEvents s.cfg (rsLevel s.cfg m) n := newEvents_sendNibble s n m
  have htime := leastTime_frame s.cfg (rsLevel s.cfg m) n
  rw [hes]
  exact ⟨frameEvents_length .., frameEvents_pins .., frameEvents_nonPins .., htime,
    fun hdefault => by rw [htime, hdefault, tNib_default],
    frameEvents_rises .., frameEvents_falls .., latchStream_frame ..⟩

end Sys2Proof.Proofs
end

section
/-! SUPPORT. Proofs of the statements about 41_codec.md: the counts of one codec call (R128), and that every request but INIT
sends whole bytes (R127, R12(b)). -/

namespace Sys2Proof.Proofs

open Sys2Proof.Machine Sys2Proof.Laws

/-! ### The counts of a codec call -/

theorem newEvents_sendByte (s : State) (m : Mode) (b : Byte) :
    s.newEvents (performAll (sendByte s.cfg m b) s) = byteEvents s.cfg m b :=
  newEvents_of (congrArg State.trace (performAll_sendByte m b s))

theorem byteEvents_length (c : Config) (m : Mode) (b : Byte) : (byteEvents c m b).length = 22 := rfl

theorem byteEvents_pins (c : Config) (m : Mode) (b : Byte) : (byteEvents c m b).countP Event.isPin = 14 := rfl

theorem byteEvents_nonPins (c : Config) (m : Mode) (b : Byte) :
    (byteEvents c m b).countP (fun e => !e.isPin) = 8 := rfl

/-- Each of the two frames ends its pulse on E once. -/
theorem byteEvents_falls (c : Config) (m : Mode) (b : Byte) : (byteEvents c m b).count (.pin .E false) = 2 := by
  rw [byteEvents, List.count_append, frameEvents_falls, frameEvents_falls]

/-- Settles O14: what a codec call adds to the trace is the events of its two frames, counted. -/
theorem codecCallCounts : Obligations.CodecCallCounts := by
  intro s b m t es
  have hes : es = byteEvents s.cfg m b := newEvents_sendByte s m b
  have htime := leastTime_byte s.cfg m b
  rw [hes]
  exact ⟨byteEvents_length .., byteEvents_pins .., byteEvents_nonPins .., htime,
    fun hdefault => by rw [htime, hdefault, tNib_default], byteEvents_falls .., latchStream_byte ..⟩

/-! ### At most one diagnostic, whole bytes, one `Done` -/

/-- Under configuration `c` the primitives `as` raise at most one diagnostic, then put the byte stream `xs` on the lines, and end
in one `Done`. -/
def SendsThenDone (c : Config) (as : List Act) (xs : List Sent) : Prop :=
  ∃ pre body st, as = pre ++ body ++ [.done st]
    ∧ (pre = [] ∨ pre = [.diag .LINE_NORMALISED] ∨ pre = [.diag .NULL_TEXT]) ∧ Sends c body xs

theorem sendsThenDone_of_sends {c : Config} {as : List Act} {xs : List Sent} (h : Sends c as xs) (st : Status) :
    SendsThenDone c (as ++ [.done st]) xs :=
  ⟨[], as, st, rfl, .inl rfl, h⟩

/-- A refusal sends no byte (R209). -/
theorem sendsThenDone_refuse (c : Config) (st : Status) : SendsThenDone c (refuse st) [] :=
  sendsThenDone_of_sends (sends_nil c) st

theorem normDiag_cases (l : Word) : normDiag l = [] ∨ normDiag l = [.diag .LINE_NORMALISED] := by
  unfold normDiag
  split_ifs
  · exact .inl rfl
  · exact .inr rfl

/-- A print: `NULL_TEXT` and no byte for an absent text, else the line's diagnostic and the stream of R169 (R161, R163). -/
theorem sendsThenDone_render (c : Config) (t : Vector Byte 50) (present : Bool) (l o : Word) :
    SendsThenDone c (render c t present l o ++ [.done .OK]) (printSent t present l o) := by
  cases present with
  | false => exact ⟨[.diag .NULL_TEXT], [], .OK, rfl, .inr (.inr rfl), sends_nil c⟩
  | true =>
    rw [render, if_pos rfl, renderText_eq]
    exact ⟨_, _, _, rfl, (normDiag_cases l).imp_right .inl, sends_renderText c t l o⟩

/-- Every request but INIT (R176 to R183), refused or admitted (R203). -/
theorem actsOf_sendsThenDone {i : Instr} (hi : isRequestRow i = true) (hn : isInitRow i = false) (s : State) :
    SendsThenDone s.cfg (actsOf i s) (requestSent s i) := by
  have ready {body : List Act} (h : SendsThenDone s.cfg body (admittedSent s i)) :
      SendsThenDone s.cfg (whenReady s body) (requestSent s i) := by
    unfold whenReady requestSent
    split_ifs
    · exact h
    · exact sendsThenDone_refuse s.cfg .BAD_STATE
  cases i with
  | init => cases hn
  | clear | cursorOn | cursorOff => exact ready (sendsThenDone_of_sends (sends_instr s.cfg _) .OK)
  | printLine1 | printLine2 | printAt => exact ready (sendsThenDone_render ..)
  | write =>
    exact ready (sendsThenDone_of_sends ((sends_instr s.cfg _).append (sends_render_lineOne s.cfg s.text)) .OK)
  | cmdUnsupported | req3 => exact ready (sendsThenDone_refuse s.cfg .UNSUPPORTED)
  | _ => cases hi

/-- What such a list leaves in the trace; the `Done` carries the status and `diag` of the state after it (R9). -/
theorem SendsThenDone.newEvents {as : List Act} {xs : List Sent} {s : State} (h : SendsThenDone s.cfg as xs) :
    ∃ ds, s.newEvents (performAll as s)
        = ds ++ streamEvents s.cfg xs ++ [.done (performAll as s).status (performAll as s).diag]
      ∧ (ds = [] ∨ ds = [.diag .LINE_NORMALISED] ∨ ds = [.diag .NULL_TEXT]) := by
  obtain ⟨pre, body, st, rfl, hpre, hbody⟩ := h
  have hstatus : (performAll (pre ++ body ++ [.done st]) s).status = st := by rw [performAll_append]; rfl
  have hdiag : (performAll (pre ++ body ++ [.done st]) s).diag = diagAfter s.diag (pre ++ body) := by
    rw [performAll_diag, diagAfter_append]; rfl
  refine ⟨eventsOf s.diag pre, ?_, ?_⟩
  · rw [newEvents_of (performAll_trace _ _), eventsOf_append, eventsOf_append, eventsOf_of_sends hbody, hstatus, hdiag]
    rfl
  · obtain rfl | rfl | rfl := hpre
    · exact .inl rfl
    · exact .inr (.inl rfl)
    · exact .inr (.inr rfl)

/-! ### Two latches a byte -/

/-- A latch stream that pairs into bytes has two latches for each (R127). -/
theorem length_of_pairLatches {c : Config} {ls : List Latch} {xs : List Sent} (h : pairLatches c ls = some xs) :
    ls.length = 2 * xs.length := by
  fun_induction pairLatches c ls generalizing xs with
  | case1 => cases h; rfl
  | case2 => cases h
  | case3 x y ls _ ih =>
    obtain ⟨ys, hys, rfl⟩ := Option.map_eq_some_iff.1 h
    rw [List.length_cons, List.length_cons, List.length_cons, ih hys]
    omega
  | case4 => cases h

/-- Settles O40: a request but INIT is a diagnostic, whole bytes and its `Done`, and the bytes are paired back from their
latches. -/
theorem requestsSendWholeBytes : Obligations.RequestsSendWholeBytes := by
  intro s i hi hn hc
  obtain ⟨ds, hevents, hds⟩ := (actsOf_sendsThenDone hi hn s).newEvents
  have hstream := byteStream_request hi hn hc
  exact ⟨_, ds, requestSent s i, exec_eq_performAll i s, hevents, hds, hstream, length_of_pairLatches hstream⟩

end Sys2Proof.Proofs
end

section
/-! SUPPORT. Proofs of the statements about 42_initializer.md: what a completed INIT leaves (R137, R141), INIT after a failed
setup and that only reset leaves `FAILED` (R136), and the counts of INIT (R140). -/

namespace Sys2Proof.Proofs

open Sys2Proof.Machine Sys2Proof.Laws

/-! ### A completed INIT -/

/-- Settles O22: an admitted INIT performs `initSequence`, and `performAll_initSequence` says what that leaves. -/
theorem initPlaysTheNineSteps : Obligations.InitPlaysTheNineSteps := by
  intro s code hl hk
  rw [exec_init_admitted code hl hk, performAll_initSequence]

/-! ### INIT after a failed setup -/

theorem actsOf_init_setupFailed {s : State} (code : BitVec 8) (hl : s.lifecycle = .UNINIT) (hk : s.setupOk = false) :
    actsOf (.init code) s = [.setLifecycle .FAILED, .done .SETUP_FAILED] := by
  simp [actsOf, initActs, refuse, hl, hk]

/-- Outside `UNINIT` no instruction moves the lifecycle: a request ends properly, which allows no such write there (R22, R142),
and the rows of the output formats only send frames. -/
theorem actsOf_keeps_lifecycle (i : Instr) {s : State} (hl : s.lifecycle ≠ .UNINIT) :
    (performAll (actsOf i s) s).lifecycle = s.lifecycle := by
  cases hi : isRequestRow i with
  | true => exact (performAll_lifecycle _ s).resolve_right (closes_noLifecycle (closes_actsOf hi s) hl _)
  | false =>
    cases i with
    | lcdClear | lcdEntryMode | lcdDisplayControl | lcdFunctionSet | lcdAddressSet => exact transmit_lifecycle _ s
    | frame r n => exact sendFrame_lifecycle r n s
    | _ => cases hi

/-- From `FAILED` the lifecycle moves by reset alone, of all the moves R22 allows. -/
theorem step_leaves_failed_by_reset {s t : State} (h : s.inv = true) (hl : s.lifecycle = .FAILED)
    (hstep : step s = .next t) (ht : t.lifecycle ≠ .FAILED) : ∃ rest, s.inputs = .reset :: rest := by
  have hne : s.lifecycle ≠ .UNINIT := by rw [hl]; decide
  obtain hsame | ⟨hu, -⟩ | ⟨hu, -⟩ | ⟨hreset, -⟩ := lifecycleMovesOnlyAsStated s t h hstep
  · exact absurd (hsame.trans hl) ht
  · exact absurd hu hne
  · exact absurd hu hne
  · exact hreset

/-- Settles O23: the two primitives of a failed setup, and that nothing but reset writes the lifecycle in `FAILED`. -/
theorem initFailsWithoutSetup : Obligations.InitFailsWithoutSetup := by
  refine ⟨fun s code hl hk => ?_, fun s i hl => ?_, fun _ _ => step_leaves_failed_by_reset⟩
  · rw [exec_eq_performAll, actsOf_init_setupFailed code hl hk]
    rfl
  · exact ⟨_, exec_eq_performAll i s, (actsOf_keeps_lifecycle i (by rw [hl]; decide)).trans hl⟩

/-! ### The counts of what is sent, by its latches: each is one frame -/

theorem sentEvents_length (c : Config) (x : Sent) : (sentEvents c x).length = 11 * (sentLatches c x).length := by
  cases x <;> rfl

theorem sentEvents_pins (c : Config) (x : Sent) :
    (sentEvents c x).countP Event.isPin = 7 * (sentLatches c x).length := by
  cases x <;> rfl

theorem sentEvents_falls (c : Config) (x : Sent) :
    (sentEvents c x).count (.pin .E false) = (sentLatches c x).length := by
  cases x with
  | instr b => exact byteEvents_falls c .COMMAND b
  | char b => exact byteEvents_falls c .DATA b
  | wake n => exact frameEvents_falls c c.rsCommand n

theorem leastTime_sent (c : Config) (x : Sent) : leastTime (sentEvents c x) = (sentLatches c x).length * tNib c := by
  cases x with
  | instr b => exact leastTime_byte c .COMMAND b
  | char b => exact leastTime_byte c .DATA b
  | wake n => exact (leastTime_frame c c.rsCommand n).trans (Nat.one_mul _).symm

/-! ### The counts of the steps of INIT -/

/-- The events of steps of INIT: what each sends, then its delay (R137). -/
def stepEvents (c : Config) (steps : List (Sent × Nat)) : List Event :=
  steps.flatMap (fun x => sentEvents c x.1 ++ [.delay x.2])

/-- The latches of steps of INIT. -/
def stepLatches (c : Config) (steps : List (Sent × Nat)) : List Latch := steps.flatMap (fun x => sentLatches c x.1)

theorem initEvents_eq_stepEvents (c : Config) : initEvents c = .delay c.tPowerOn :: stepEvents c (initSteps c) := rfl

theorem stepEvents_cons (c : Config) (x : Sent × Nat) (xs : List (Sent × Nat)) :
    stepEvents c (x :: xs) = sentEvents c x.1 ++ .delay x.2 :: stepEvents c xs := by
  simp [stepEvents]

theorem stepLatches_cons (c : Config) (x : Sent × Nat) (xs : List (Sent × Nat)) :
    stepLatches c (x :: xs) = sentLatches c x.1 ++ stepLatches c xs := rfl

theorem stepEvents_length (c : Config) (xs : List (Sent × Nat)) :
    (stepEvents c xs).length = 11 * (stepLatches c xs).length + xs.length := by
  induction xs with
  | nil => rfl
  | cons x xs ih =>
    simp only [stepEvents_cons, stepLatches_cons, List.length_append, List.length_cons, sentEvents_length, ih]
    omega

theorem stepEvents_pins (c : Config) (xs : List (Sent × Nat)) :
    (stepEvents c xs).countP Event.isPin = 7 * (stepLatches c xs).length := by
  induction xs with
  | nil => rfl
  | cons x xs ih =>
    have hdelay : Event.isPin (.delay x.2) = false := rfl
    simp [stepEvents_cons, stepLatches_cons, sentEvents_pins, hdelay, ih, Nat.mul_add]

theorem stepEvents_falls (c : Config) (xs : List (Sent × Nat)) :
    (stepEvents c xs).count (.pin .E false) = (stepLatches c xs).length := by
  induction xs with
  | nil => rfl
  | cons x xs ih => simp [stepEvents_cons, stepLatches_cons, sentEvents_falls, ih]

theorem leastTime_stepEvents (c : Config) (xs : List (Sent × Nat)) :
    leastTime (stepEvents c xs) = (stepLatches c xs).length * tNib c + (xs.map Prod.snd).sum := by
  induction xs with
  | nil => simp [stepEvents, stepLatches, leastTime]
  | cons x xs ih =>
    simp only [stepEvents_cons, stepLatches_cons, leastTime_append, leastTime_sent, leastTime, ih, List.length_append,
      List.map_cons, List.sum_cons, Nat.add_mul]
    omega

/-- Four wake nibbles and five bytes (R138). -/
theorem initLatches_length_nibble {c : Config} (h : c.wakeFraming = .NIBBLE) :
    (stepLatches c (initSteps c)).length = 14 := by
  simp [stepLatches, initSteps, h, sentLatches]

/-- Nine bytes (R138). -/
theorem initLatches_length_byte {c : Config} (h : c.wakeFraming = .BYTE) :
    (stepLatches c (initSteps c)).length = 18 := by
  simp [stepLatches, initSteps, h, sentLatches]

/-- The nine delays of INIT, added up. -/
theorem initSteps_delays (c : Config) : ((initSteps c).map Prod.snd).sum
    = c.tInit1 + c.tInit2 + c.tInit3 + c.tInit4 + c.tInit5 + c.tInit6 + c.tInit7 + c.tInit8 + c.tInit9 := by
  simp [initSteps, Nat.add_assoc]

/-- The counts of R140 from the number `n` of frames the nine steps send. -/
theorem initEvents_counts {c : Config} {n : Nat} (h : (stepLatches c (initSteps c)).length = n) :
    (initEvents c).length = 11 * n + 10 ∧ (initEvents c).countP Event.isPin = 7 * n
      ∧ (initEvents c).count (.pin .E false) = n
      ∧ leastTime (initEvents c) = c.tPowerOn + n * tNib c
          + (c.tInit1 + c.tInit2 + c.tInit3 + c.tInit4 + c.tInit5 + c.tInit6 + c.tInit7 + c.tInit8 + c.tInit9) := by
  subst h
  rw [initEvents_eq_stepEvents]
  refine ⟨?length, ?pins, ?falls, ?time⟩
  case length => rw [List.length_cons, stepEvents_length]; rfl
  case pins => exact stepEvents_pins c (initSteps c)
  case falls => rw [List.count_cons_of_ne (by simp), stepEvents_falls]
  case time =>
    rw [leastTime, leastTime_stepEvents, initSteps_delays]
    exact (Nat.add_assoc ..).symm

/-- Settles O24: an admitted INIT leaves `initEvents` and its `Done`, counted under each framing. -/
theorem initCounts : Obligations.InitCounts := by
  intro s code hl hk
  refine ⟨_, initEvents s.cfg, exec_init_admitted code hl hk, ?events, ?nibble, ?byte, ?default, ?defaultByte⟩
  case events => rw [newEvents_of (performAll_trace _ _), eventsOf_initSequence]
  case nibble => exact fun hw => initEvents_counts (initLatches_length_nibble hw)
  case byte => exact fun hw => initEvents_counts (initLatches_length_byte hw)
  case default =>
    intro hc
    obtain ⟨-, -, -, htime⟩ := initEvents_counts (initLatches_length_nibble (c := Config.default) rfl)
    rw [hc, htime]
    rfl
  case defaultByte =>
    intro hc
    obtain ⟨-, -, -, htime⟩ :=
      initEvents_counts (initLatches_length_byte (c := { Config.default with wakeFraming := .BYTE }) rfl)
    rw [hc, htime]
    rfl

end Sys2Proof.Proofs
end

section
/-! SUPPORT. Proofs of the statements about 43_cursor_addressing.md: the byte `setPosition` sends, for every line and offset
(R153, R154), and that `setLineStart` sends the base of the line (R151, R152). -/

namespace Sys2Proof.Proofs

open Sys2Proof.Machine Sys2Proof.Laws

/-! ### The address bytes -/

theorem base_norm (l : Word) : base (norm l) = if l = 2#32 then 0xC0#8 else 0x80#8 := by
  unfold Machine.norm
  split_ifs <;> rfl

/-- The sum on natural numbers, cut to eight bits, needs the offset modulo 256 only (R154). -/
theorem addressByte_eq_ofNat_mod (k : Line) (o : Word) :
    addressByte k o = BitVec.ofNat 8 (((base k).toNat + o.toNat % 256) % 256) := by
  apply BitVec.eq_of_toNat_eq
  simp only [addressByte, BitVec.toNat_ofNat]
  omega

theorem addressByte_zero (k : Line) : addressByte k 0#32 = base k := by
  cases k <;> rfl

/-! ### The two operations -/

/-- What the two operations share: the diagnostic of the line, then one instruction byte (R152, R153). -/
theorem performAll_normDiag_sendInstruction (l : Word) (b : Byte) (s : State) :
    performAll (normDiag l ++ sendInstruction s.cfg b) s = { s with
      diag := { s.diag with lineNormalised := s.diag.lineNormalised || !(l == 1#32 || l == 2#32) }
      pins := bytePins s.cfg .COMMAND b
      trace := s.trace ++ ((if !(l == 1#32 || l == 2#32) then [.diag .LINE_NORMALISED] else [])
        ++ byteEvents s.cfg .COMMAND b)
      sink := byteSink s.cfg .COMMAND b s.sink } := by
  have hsend := performAll_sendByte .COMMAND b (performAll (normDiag l) s)
  rw [performAll_cfg] at hsend
  rw [performAll_append, sendInstruction, hsend, performAll_normDiag, ← List.append_assoc]

/-- `setLineStart` is `setPosition` at offset 0 (R152). -/
theorem setLineStart_eq_setPosition_zero (c : Config) (l : Word) : setLineStart c l = setPosition c l 0#32 := by
  rw [setLineStart, setPosition, addressByte_zero]

/-- Settles O35: the diagnostic and one byte, that byte being the base plus the offset modulo 256. -/
theorem setPositionSendsTheAddressByte : Obligations.SetPositionSendsTheAddressByte := by
  intro s l o bad b
  have hb : addressByte (norm l) o = b := by
    rw [addressByte_eq_ofNat_mod, base_norm, apply_ite BitVec.toNat]
    rfl
  rw [setPosition, hb]
  exact performAll_normDiag_sendInstruction l b s

/-- Settles O57: the diagnostic and one byte, that byte being the base, which is the address byte of offset 0. -/
theorem setLineStartSendsTheBase : Obligations.SetLineStartSendsTheBase := by
  intro s l bad b
  constructor
  · rw [setLineStart, base_norm]
    exact performAll_normDiag_sendInstruction l b s
  · rw [setLineStart_eq_setPosition_zero]

end Sys2Proof.Proofs
end

section
/-! SUPPORT. Proofs of the statements about 44_text_renderer.md: the prints in closed form and an absent text (R161, R163,
R169), the wrap policy (R164 to R166), and what PRINT_AT shows on the display (R169 with R62 to R64). -/

namespace Sys2Proof.Proofs

open Sys2Proof.Machine Sys2Proof.Laws

/-! ### The three prints -/

/-- Row `i`, run in state `s`, is the print at line `l` and offset `o` (R177 to R179). -/
def PrintsAt (s : State) (i : Instr) (l o : Word) : Prop :=
  (i = .printLine1 ∧ l = 1#32 ∧ o = 0#32) ∨ (i = .printLine2 ∧ l = 2#32 ∧ o = 0#32)
    ∨ (i = .printAt ∧ l = s.line ∧ o = s.offset)

/-- Each of the three rows prints somewhere. -/
theorem exists_printsAt {s : State} {i : Instr} (h : i = .printLine1 ∨ i = .printLine2 ∨ i = .printAt) :
    ∃ l o, PrintsAt s i l o := by
  obtain rfl | rfl | rfl := h
  · exact ⟨_, _, .inl ⟨rfl, rfl, rfl⟩⟩
  · exact ⟨_, _, .inr (.inl ⟨rfl, rfl, rfl⟩)⟩
  · exact ⟨_, _, .inr (.inr ⟨rfl, rfl, rfl⟩)⟩

/-- The rows that print on line 2 (R178, R179). -/
theorem PrintsAt.line_eq_two {s : State} {i : Instr} {l o : Word} (h : PrintsAt s i l o)
    (hi : i = .printLine2 ∨ (i = .printAt ∧ s.line = 2#32)) : l = 2#32 := by
  obtain ⟨rfl, rfl, -⟩ | ⟨rfl, rfl, -⟩ | ⟨rfl, rfl, -⟩ := h
  · simp at hi
  · rfl
  · simpa using hi

/-- A print in `READY` is a render and `Done(OK)`. -/
theorem exec_of_printsAt {s : State} {i : Instr} {l o : Word} (hr : s.lifecycle = .READY) (h : PrintsAt s i l o) :
    exec i s = .next (performAll (render s.cfg s.text s.textPresent l o ++ [.done .OK]) s) := by
  rw [exec_eq_performAll]
  have ready (body : List Act) : whenReady s body = body := if_pos hr
  obtain ⟨rfl, rfl, rfl⟩ | ⟨rfl, rfl, rfl⟩ | ⟨rfl, rfl, rfl⟩ := h
  · rw [actsOf, printLine1Acts, ready]
  · rw [actsOf, printLine2Acts, ready]
  · rw [actsOf, printAtActs, ready]

/-- Settles O30: an absent text is one diagnostic and `Done(OK)`, whatever line and offset the print has. -/
theorem absentTextPrintsNothing : Obligations.AbsentTextPrintsNothing := by
  intro s i hr hp hi
  obtain ⟨l, o, h⟩ := exists_printsAt (s := s) hi
  rw [exec_of_printsAt hr h]
  simp [hp, render, perform, Diag.raise]

/-- A byte stream and the `Done` that ends its request: what it leaves. -/
theorem performAll_sends_done {s : State} {as : List Act} {xs : List Sent} (h : Sends s.cfg as xs) (st : Status) :
    ∃ l n j, performAll (as ++ [.done st]) s = { s with
      status := st, busy := false, pins := streamPins s.cfg s.pins xs
      trace := s.trace ++ (streamEvents s.cfg xs ++ [.done st s.diag])
      sink := streamSink s.cfg s.sink xs, ln := l, cnt := n, idx := j } := by
  obtain ⟨l, n, j, e⟩ := h s rfl
  refine ⟨l, n, j, ?_⟩
  rw [performAll_append, e]
  simp [perform, sendState]

/-- Settles O28: a print is the diagnostic of its line, then the stream that `sends_renderText` gives, then `Done(OK)`. -/
theorem printsRenderInClosedForm : Obligations.PrintsRenderInClosedForm := by
  intro s i line offset hr hp hi bad xs g
  have hdiag : performAll (normDiag line) s
      = { s with diag := g, trace := s.trace ++ (if bad then [.diag .LINE_NORMALISED] else []) } :=
    performAll_normDiag line s
  have hsend : Sends (performAll (normDiag line) s).cfg _ xs := sends_renderText _ s.text line offset
  obtain ⟨l, n, j, e⟩ := performAll_sends_done hsend .OK
  refine ⟨l, n, j, ?_⟩
  rw [exec_of_printsAt hr hi, render, if_pos hp, renderText_eq, List.append_assoc, performAll_append]
  rw [performAll_cfg] at e
  rw [e, hdiag]
  simp only [List.append_assoc]

/-! ### The wrap policy -/

/-- The two outcomes of the loop: the line takes what is sent, or line 1 overflows and the text goes on at line 2 (R164,
R165, R169). -/
theorem loopSent_cases (k : Line) (n : Nat) (t : List Byte) :
    ((k = .two ∨ t.length ≤ 16 - n) ∧ loopSent k n t = (t.take (16 - n)).map Sent.char)
    ∨ (k = .one ∧ 16 - n < t.length ∧ loopSent k n t = (t.take (16 - n)).map Sent.char
        ++ .instr 0xC0#8 :: ((t.drop (16 - n)).take 16).map Sent.char) := by
  cases k with
  | two => exact .inl ⟨.inl rfl, rfl⟩
  | one =>
    by_cases hfits : t.length ≤ 16 - n
    · rw [loopSent, if_pos hfits, List.take_of_length_le hfits]
      exact .inl ⟨.inr hfits, rfl⟩
    · rw [loopSent, if_neg hfits]
      exact .inr ⟨rfl, Nat.lt_of_not_le hfits, rfl⟩

@[simp] theorem dataBytes_append (xs ys : List Sent) : dataBytes (xs ++ ys) = dataBytes xs ++ dataBytes ys := by
  induction xs with
  | nil => rfl
  | cons x xs ih => cases x <;> simp [dataBytes, ih]

@[simp] theorem dataBytes_chars (t : List Byte) : dataBytes (t.map Sent.char) = t := by
  induction t with
  | nil => rfl
  | cons b t ih => simp [dataBytes, ih]

@[simp] theorem filter_isInstr_chars (t : List Byte) : (t.map Sent.char).filter Sent.isInstr = [] := by
  simp [Sent.isInstr]

theorem isInstr_of_getLast?_chars {t : List Byte} {x : Sent} (h : (t.map Sent.char).getLast? = some x) :
    x.isInstr = false := by
  obtain ⟨b, -, rfl⟩ := List.mem_map.1 (List.mem_of_getLast? h)
  rfl

/-- The byte stream `xs`, which follows an address-set, keeps the wrap policy for the text `t` (R166). -/
def KeepsWrapPolicy (t : List Byte) (onLine2 : Prop) (xs : List Sent) : Prop :=
  ∃ n, dataBytes xs = t.take n ∧ n ≤ 32
    ∧ xs.filter Sent.isInstr ∈ [[], [Sent.instr 0xC0#8]]
    ∧ (onLine2 → xs.filter Sent.isInstr = [] ∧ n ≤ 16)
    ∧ (∀ x, xs.getLast? = some x → x.isInstr = false) ∧ (∀ x ∈ xs, ∀ q, x ≠ .wake q)

theorem KeepsWrapPolicy.mono {t : List Byte} {P Q : Prop} {xs : List Sent} (h : KeepsWrapPolicy t P xs) (hQP : Q → P) :
    KeepsWrapPolicy t Q xs := by
  obtain ⟨n, hdata, hn, hinstr, hline2, hlast, hwake⟩ := h
  exact ⟨n, hdata, hn, hinstr, fun hQ => hline2 (hQP hQ), hlast, hwake⟩

/-- Characters alone, at most sixteen, keep the policy on either line. -/
theorem keepsWrapPolicy_chars {t u : List Byte} {n : Nat} (hn : n ≤ 16) (hu : u = t.take n) (P : Prop) :
    KeepsWrapPolicy t P (u.map Sent.char) := by
  exact ⟨n, by rw [dataBytes_chars, hu], by omega, by simp, fun _ => ⟨filter_isInstr_chars u, hn⟩,
    fun x hx => isInstr_of_getLast?_chars hx, by simp⟩

/-- One wrap, with a character behind it, keeps the policy on line 1. -/
theorem keepsWrapPolicy_wrap {t u v : List Byte} {n : Nat} (hn : n ≤ 32) (huv : u ++ v = t.take n) (hv : v ≠ [])
    {P : Prop} (hP : ¬ P) : KeepsWrapPolicy t P (u.map Sent.char ++ .instr 0xC0#8 :: v.map Sent.char) := by
  have hinstr : (u.map Sent.char ++ .instr 0xC0#8 :: v.map Sent.char).filter Sent.isInstr = [.instr 0xC0#8] := by
    rw [List.filter_append, filter_isInstr_chars, List.filter_cons_of_pos rfl, filter_isInstr_chars, List.nil_append]
  refine ⟨n, by simp [dataBytes, huv], hn, by simp [hinstr], fun h => absurd h hP, fun x hx => ?_, ?_⟩
  · rw [List.getLast?_append_of_ne_nil _ (List.cons_ne_nil _ _), List.getLast?_cons_of_ne_nil (by simpa using hv)] at hx
    exact isInstr_of_getLast?_chars hx
  · simp only [List.forall_mem_append, List.forall_mem_cons, List.forall_mem_map]
    simp

/-- What the loop of `render` sends keeps the policy (R164 to R166). -/
theorem loopSent_keepsWrapPolicy (k : Line) (n : Nat) (t : List Byte) : KeepsWrapPolicy t (k = .two) (loopSent k n t) := by
  obtain ⟨-, e⟩ | ⟨rfl, ht, e⟩ := loopSent_cases k n t
  · rw [e]
    exact keepsWrapPolicy_chars (Nat.sub_le 16 n) rfl _
  · rw [e]
    have hrest : (t.drop (16 - n)).take 16 ≠ [] := by simp; omega
    exact keepsWrapPolicy_wrap (by omega) List.take_add.symm hrest (by simp)

/-- A byte stream has no diagnostic in it. -/
theorem filter_streamEvents_diag (c : Config) (xs : List Sent) (d : DiagKind) :
    (streamEvents c xs).filter (fun e => e != .diag d) = streamEvents c xs := by
  refine List.filter_eq_self.2 fun e he => bne_iff_ne.2 fun hd => ?_
  have hwave : isWave e = true := List.all_eq_true.1 (streamEvents_wave c xs) e he
  rw [hd] at hwave
  cases hwave

theorem filter_normalised (b : Bool) :
    (if b then [Event.diag .LINE_NORMALISED] else []).filter (fun e => e != .diag .LINE_NORMALISED) = [] := by
  revert b
  decide

/-- A WRITE in `READY` is the clear byte, a render at line 1 and `Done(OK)` (R183). -/
theorem exec_write_of_ready {s : State} (hr : s.lifecycle = .READY) (c : BitVec 8) :
    exec (.write c) s = .next
      (performAll (sendInstruction s.cfg s.cfg.bClear ++ render s.cfg s.text true 1#32 0#32 ++ [.done .OK]) s) := by
  rw [exec_eq_performAll, actsOf, writeActs, whenReady, if_pos hr]

/-- Settles O32: behind the address-set stands what the loop sends, by the closed form of O28, and for a WRITE by that of its
render at line 1. -/
theorem printsKeepTheWrapPolicy : Obligations.PrintsKeepTheWrapPolicy := by
  constructor
  · intro s i hr hp hi
    obtain ⟨line, offset, hprint⟩ := exists_printsAt (s := s) hi
    obtain ⟨l, n, j, hexec⟩ := printsRenderInClosedForm s i line offset hr hp hprint
    refine ⟨_, addressByte (norm line) offset, loopSent (norm line) offset.toNat (textOf s.text), hexec, ?_, ?_⟩
    · rw [newEvents_of rfl, List.filter_append, List.filter_append, filter_normalised, filter_streamEvents_diag,
        ← renderSent_eq]
      rfl
    · exact (loopSent_keepsWrapPolicy _ _ _).mono fun hline2 => if_pos (hprint.line_eq_two hline2)
  · intro s c hr
    have hsend := (sends_instr s.cfg s.cfg.bClear).append (sends_render_lineOne s.cfg s.text)
    rw [renderSent_eq] at hsend
    obtain ⟨l, n, j, e⟩ := performAll_sends_done hsend .OK
    exact ⟨_, loopSent .one 0 (textOf s.text), (exec_write_of_ready hr c).trans (congrArg Host.Outcome.next e),
      newEvents_of rfl, (loopSent_keepsWrapPolicy .one 0 _).mono False.elim⟩

/-! ### What a print shows -/

/-- The bytes of a text laid out from cell `start` on. -/
def laidOut (start : Nat) (t : List Byte) (a : Nat) : Option Byte := if start ≤ a then t[a - start]? else none

@[simp] theorem laidOut_nil (start a : Nat) : laidOut start [] a = none := by simp [laidOut]

/-- The LCD `l'` is `l` with the cells that `f` gives a byte holding it, every other cell and the mode bits kept, and the next
high nibble awaited. -/
structure Overwrites (l l' : Lcd) (f : Nat → Option Byte) : Prop where
  cells : ∀ a : Nat, Memory.read l'.ddram a = (f a).getD (Memory.read l.ddram a)
  disp : l'.disp = l.disp
  cur : l'.cur = l.cur
  blink : l'.blink = l.blink
  half : l'.half = none
  ok : sinkOk (some l') = true

/-- The later of two overwrites wins. -/
theorem Overwrites.trans {l l' l'' : Lcd} {f g : Nat → Option Byte} (h1 : Overwrites l l' f) (h2 : Overwrites l' l'' g) :
    Overwrites l l'' (fun a => (g a).or (f a)) where
  cells a := by rw [h2.cells, h1.cells, Option.getD_or]
  disp := h2.disp.trans h1.disp
  cur := h2.cur.trans h1.cur
  blink := h2.blink.trans h1.blink
  half := h2.half
  ok := h2.ok

/-- An address-set and a text that stays inside one row of cells (R62, R63). -/
theorem streamSink_textAt {c : Config} (hc : c.rsCommand ≠ c.rsData) {l : Lcd} (hl : l.half = none)
    (hok : sinkOk (some l) = true) (a : BitVec 7) {t : List Byte}
    (hrow : a.toNat + t.length ≤ 0x27 ∨ (0x40 ≤ a.toNat ∧ a.toNat + t.length ≤ 0x67)) :
    ∃ l', streamSink c (some l) (.instr (addressSetByte a) :: t.map Sent.char) = some l'
      ∧ Overwrites l l' (laidOut a.toNat t) := by
  have hcell : Memory.isCell a.toNat = true := (isCell_iff _).2 (by omega)
  obtain ⟨htop, haddr⟩ := addressSetByte_fields a
  have hok' : sinkOk (some { l with ac := a }) = true := by simp_all [sinkOk]
  obtain ⟨l', hsink, hhalf, hok'', -, hread, hdisp, hcur, hblink⟩ := streamSink_chars hc t { l with ac := a } hl hok' hrow
  refine ⟨l', ?_, ?_, hdisp, hcur, hblink, hhalf, hok''⟩
  · rw [← hsink, ← sentSink_address hc hl htop haddr hcell]
    rfl
  · intro x
    rw [hread, laidOut]
    by_cases hx : a.toNat ≤ x
    · by_cases hend : x < a.toNat + t.length
      · have hlt : x - a.toNat < t.length := by omega
        simp [hx, hend, hlt]
      · have hge : t.length ≤ x - a.toNat := by omega
        simp [hx, hend, hge]
    · simp [hx]

/-- The address-set of a visible cell (R151, R154, R64). -/
theorem addressByte_visible (k : Line) (j : Fin 16) :
    addressByte k (BitVec.ofNat 32 j) = addressSetByte (BitVec.ofNat 7 (cellAddress k j)) := by
  cases k <;> revert j <;> decide

theorem cellAddress_row (k : Line) (j : Fin 16) {n : Nat} (hn : n ≤ 16 - j) :
    cellAddress k j + n ≤ 0x27 ∨ (0x40 ≤ cellAddress k j ∧ cellAddress k j + n ≤ 0x67) := by
  cases k <;> simp only [cellAddress] <;> omega

/-- The first `n` bytes of a text, laid out. -/
theorem laidOut_take (start n : Nat) (t : List Byte) (a : Nat) :
    laidOut start (t.take n) a = if start ≤ a ∧ a < start + n then t[a - start]? else none := by
  unfold laidOut
  by_cases h : start ≤ a
  · rw [if_pos h, List.getElem?_take]
    exact if_congr (by omega) rfl rfl
  · rw [if_neg h, if_neg fun hrun => h hrun.1]

/-- A render on line 1 lays its text out on line 1, and what is left of it on line 2. -/
theorem printedAt_one (j : Fin 16) (t : List Byte) :
    printedAt .one j t = fun a => (laidOut 0x40 ((t.drop (16 - j)).take 16) a).or (laidOut j (t.take (16 - j)) a) := by
  funext a
  have hend : (j : Nat) + (16 - j) = 16 := by omega
  simp only [printedAt, laidOut_take, hend, List.getElem?_drop, Nat.reduceAdd]
  by_cases hline1 : j ≤ a ∧ a < 16
  · have hline2 : ¬ (0x40 ≤ a ∧ a < 0x50) := by omega
    rw [if_pos hline1, if_pos hline1, if_neg hline2, Option.none_or]
  · rw [if_neg hline1, if_neg hline1, Option.or_none]

/-- A render on line 2 lays out what the line takes. -/
theorem printedAt_two (j : Fin 16) (t : List Byte) :
    printedAt .two j t = laidOut (0x40 + j) (t.take (16 - j)) := by
  funext a
  have hend : 0x40 + (j : Nat) + (16 - j) = 0x50 := by omega
  rw [printedAt, laidOut_take, hend]

/-- A render that fits its line, or is cut at its end, lays its text out on that line. -/
theorem printedAt_of_fits {k : Line} {j : Fin 16} {t : List Byte} (h : k = .two ∨ t.length ≤ 16 - j) :
    printedAt k j t = laidOut (cellAddress k j) (t.take (16 - j)) := by
  cases k with
  | one =>
    have hrest : t.drop (16 - j) = [] := List.drop_eq_nil_of_le (h.resolve_left (by simp))
    simp [printedAt_one, hrest, cellAddress]
  | two => exact printedAt_two j t

/-- A render at a visible cell (R169 with R62 to R64). -/
theorem streamSink_renderSent {c : Config} (hc : c.rsCommand ≠ c.rsData) {l : Lcd} (hl : l.half = none)
    (hok : sinkOk (some l) = true) (k : Line) {o : Word} (ho : o.toNat < 16) (t : List Byte) :
    ∃ l', streamSink c (some l) (renderSent k o t) = some l' ∧ Overwrites l l' (printedAt k o.toNat t) := by
  obtain ⟨j, rfl⟩ : ∃ j : Fin 16, o = BitVec.ofNat 32 j := ⟨⟨o.toNat, ho⟩, by simp⟩
  have hj : (BitVec.ofNat 32 j).toNat = j := by rw [BitVec.toNat_ofNat]; omega
  have hstart : (BitVec.ofNat 7 (cellAddress k j)).toNat = cellAddress k j := by
    cases k <;> simp only [cellAddress, BitVec.toNat_ofNat] <;> omega
  have hrow := cellAddress_row k j (List.length_take_le (16 - j.val) t)
  rw [renderSent_eq, addressByte_visible, hj]
  obtain ⟨l1, hsink1, h1⟩ := streamSink_textAt hc hl hok (BitVec.ofNat 7 (cellAddress k j)) (by rwa [hstart])
  rw [hstart] at h1
  obtain ⟨hfits, e⟩ | ⟨rfl, -, e⟩ := loopSent_cases k j t
  · rw [e, printedAt_of_fits hfits]
    exact ⟨l1, hsink1, h1⟩
  · obtain ⟨l2, hsink2, h2⟩ :=
      streamSink_textAt hc h1.half h1.ok 0x40#7 (t := (t.drop (16 - j)).take 16) (by simp; omega)
    rw [e, printedAt_one, ← List.cons_append, streamSink_append, hsink1]
    exact ⟨l2, hsink2, h1.trans h2⟩

/-- Settles O52: PRINT_AT sends the closed form of O28, and the LCD lays out its one or two runs of text. -/
theorem printAtShowsTheText : Obligations.PrintAtShowsTheText := by
  intro s l hr hp hc ho hs hl hok
  obtain ⟨_, _, _, hexec⟩ := printsRenderInClosedForm s .printAt s.line s.offset hr hp (.inr (.inr ⟨rfl, rfl, rfl⟩))
  obtain ⟨l', hsink, h⟩ := streamSink_renderSent hc hl hok (if s.line = 2#32 then .two else .one) ho (textOf s.text)
  refine ⟨_, l', hexec, ?_, h.cells, h.disp, h.cur, h.blink, h.half, h.ok⟩
  rw [← hsink, ← hs]

end Sys2Proof.Proofs
end

section
/-! SUPPORT. Proofs of the statements about 45_command_dispatcher.md: what the commands, WRITE and the unsupported words do (R176,
R180 to R183), which requests are others (R92, R177, R178, R183), the one `Done` of every request (R185), the fields that have no
effect (R184), and what WRITE shows on the display (R183 with R62 to R64). -/

namespace Sys2Proof.Proofs

open Sys2Proof.Machine Sys2Proof.Laws

/-! ### The requests admitted in `READY` -/

theorem whenReady_of_ready {s : State} (hr : s.lifecycle = .READY) (body : List Act) : whenReady s body = body :=
  if_pos hr

/-- Row `i`, run in state `s`, is the command that sends the byte `b` (R176, R180, R181). -/
def SendsOne (s : State) (i : Instr) (b : Byte) : Prop :=
  (i = .clear ∧ b = s.cfg.bClear) ∨ (i = .cursorOn ∧ b = s.cfg.bCursorOn) ∨ (i = .cursorOff ∧ b = s.cfg.bCursorOff)

theorem actsOf_of_sendsOne {s : State} {i : Instr} {b : Byte} (hr : s.lifecycle = .READY) (h : SendsOne s i b) :
    actsOf i s = sendInstruction s.cfg b ++ [.done .OK] := by
  obtain ⟨rfl, rfl⟩ | ⟨rfl, rfl⟩ | ⟨rfl, rfl⟩ := h
  · exact whenReady_of_ready hr _
  · exact whenReady_of_ready hr _
  · exact whenReady_of_ready hr _

/-- What a one-byte command leaves: the byte on the lines, `Done(OK)`, and all else as it was. -/
def afterOneByte (b : Byte) (s : State) : State :=
  { s with
    status := .OK, busy := false, pins := bytePins s.cfg .COMMAND b
    trace := s.trace ++ (byteEvents s.cfg .COMMAND b ++ [.done .OK s.diag])
    sink := byteSink s.cfg .COMMAND b s.sink }

theorem exec_of_sendsOne {s : State} {i : Instr} {b : Byte} (hr : s.lifecycle = .READY) (h : SendsOne s i b) :
    exec i s = .next (afterOneByte b s) := by
  rw [exec_eq_performAll, actsOf_of_sendsOne hr h, performAll_append, sendInstruction, performAll_sendByte]
  simp [perform, afterOneByte]

theorem exec_clear {s : State} (hr : s.lifecycle = .READY) : exec .clear s = .next (afterOneByte s.cfg.bClear s) :=
  exec_of_sendsOne hr (.inl ⟨rfl, rfl⟩)

/-- Settles O26: one byte, by `performAll_sendByte`, and `Done(OK)`. -/
theorem oneByteCommandsSendTheirByte : Obligations.OneByteCommandsSendTheirByte :=
  fun _ _ _ hr h => exec_of_sendsOne hr h

/-- Settles O29: the clear byte, then the stream that `sends_render_lineOne` gives, then `Done(OK)`. -/
theorem writeClearsThenPrints : Obligations.WriteClearsThenPrints := by
  intro s code hr xs
  have hsend : Sends s.cfg _ xs := (sends_instr s.cfg s.cfg.bClear).append (sends_render_lineOne s.cfg s.text)
  obtain ⟨l, n, j, e⟩ := performAll_sends_done hsend .OK
  exact ⟨l, n, j, (exec_write_of_ready hr code).trans (congrArg Host.Outcome.next e)⟩

/-! ### Unsupported words -/

theorem commandCodes_between {c : BitVec 8} (h : commandCodes.contains c = true) : 0x30#8 ≤ c ∧ c ≤ 0x35#8 := by
  simp only [commandCodes, List.contains_iff_mem, List.mem_cons, List.not_mem_nil, or_false] at h
  rcases h with rfl | rfl | rfl | rfl | rfl | rfl <;> decide

/-- A code outside 0x30 to 0x35 is none of the six (R83). -/
theorem commandCodes_contains_of_outside {c : BitVec 8} (h : c < 0x30#8 ∨ 0x35#8 < c) :
    commandCodes.contains c = false := by
  by_contra hc
  obtain ⟨hlow, hhigh⟩ := commandCodes_between (Bool.not_eq_false _ ▸ hc)
  exact h.elim (BitVec.not_lt.2 hlow) (BitVec.not_lt.2 hhigh)

/-- The two unsupported rows in `READY` (R182). -/
theorem exec_unsupported {s : State} {i : Instr} (hr : s.lifecycle = .READY)
    (hi : (∃ c, i = .cmdUnsupported c) ∨ ∃ c, i = .req3 c) :
    exec i s = .next { s with
      status := .UNSUPPORTED, busy := false, trace := s.trace ++ [.done .UNSUPPORTED s.diag] } := by
  have hacts : actsOf i s = refuse .UNSUPPORTED := by
    obtain ⟨c, rfl⟩ | ⟨c, rfl⟩ := hi
    · exact whenReady_of_ready hr _
    · exact whenReady_of_ready hr _
  rw [exec_eq_performAll, hacts]
  rfl

/-- Settles O31: the word's kind, or its code beside the six, chooses one of the two rows. -/
theorem unsupportedWordsDoNothing : Obligations.UnsupportedWordsDoNothing := by
  refine ⟨fun s i => exec_unsupported, fun s r hr hword => exec_unsupported (s := accept r s) hr ?_⟩
  rcases hword with ⟨hkind, hcode⟩ | hkind
  · rw [hkind, decodeReq10_cmd]
    exact .inl ⟨_, decodeCommand_of_other (commandCodes_contains_of_outside hcode)⟩
  · rw [hkind, decodeReq10_req3]
    exact .inr ⟨_, rfl⟩

/-! ### Requests that are others -/

/-- Two states seen alike whose rows perform the same primitives are seen alike afterwards. -/
theorem exec_seen_congr {i j : Instr} {s u : State} (hc : s.cfg = u.cfg) (h : s.seen = u.seen)
    (hacts : actsOf i s = actsOf j u) : ∃ t v, exec i s = .next t ∧ exec j u = .next v ∧ t.seen = v.seen := by
  refine ⟨_, _, exec_eq_performAll i s, exec_eq_performAll j u, ?_⟩
  rw [hacts]
  exact performAll_seen _ _ _ hc h

theorem streamPins_cons (c : Config) (p : Pins) (x : Sent) (xs : List Sent) :
    streamPins c p (x :: xs) = streamPins c (sentPins c x) xs :=
  streamPins_append c p [x] xs

theorem isDone_of_isWave {e : Event} (h : isWave e = true) : e.isDone = false := by
  cases e with
  | done => cases h
  | _ => rfl

/-- A transfer has no `Done` in it. -/
theorem filter_notDone_of_wave {es : List Event} (h : es.all isWave = true) : es.filter (fun e => !e.isDone) = es := by
  refine List.filter_eq_self.2 fun e he => ?_
  rw [isDone_of_isWave (List.all_eq_true.1 h e he), Bool.not_false]

/-- Two requests in a row, less their `Done`s. -/
theorem filter_notDone_two_requests {xs ys : List Event} (hx : xs.all isWave = true) (hy : ys.all isWave = true)
    (st st' : Status) (g g' : Diag) :
    (xs ++ [Event.done st g] ++ (ys ++ [Event.done st' g'])).filter (fun e => !e.isDone) = xs ++ ys := by
  have hdone (st g) : [Event.done st g].filter (fun e => !e.isDone) = [] := rfl
  simp only [List.filter_append, filter_notDone_of_wave hx, filter_notDone_of_wave hy, hdone, List.append_nil]

theorem byteEvents_wave (c : Config) (m : Mode) (b : Byte) : (byteEvents c m b).all isWave = true := by
  simp only [byteEvents, List.all_append, frameEvents_wave, Bool.and_self]

/-- PRINT_LINE1 in `READY` with the text present (R177). -/
theorem exec_printLine1 {s : State} (hr : s.lifecycle = .READY) (hp : s.textPresent = true) :
    ∃ l n j, exec .printLine1 s = .next { s with
      status := .OK, busy := false, pins := streamPins s.cfg s.pins (renderSent .one 0#32 (textOf s.text))
      trace := s.trace ++ (streamEvents s.cfg (renderSent .one 0#32 (textOf s.text)) ++ [.done .OK s.diag])
      sink := streamSink s.cfg s.sink (renderSent .one 0#32 (textOf s.text)), ln := l, cnt := n, idx := j } := by
  have hsend : Sends s.cfg (render s.cfg s.text s.textPresent 1#32 0#32) (renderSent .one 0#32 (textOf s.text)) :=
    hp ▸ sends_render_lineOne s.cfg s.text
  obtain ⟨l, n, j, e⟩ := performAll_sends_done hsend .OK
  exact ⟨l, n, j, (exec_of_printsAt hr (.inl ⟨rfl, rfl, rfl⟩)).trans (congrArg Host.Outcome.next e)⟩

/-- Settles O33: the line prints perform the primitives of PRINT_AT, and WRITE sends the byte of CLEAR and then the stream of
PRINT_LINE1. -/
theorem requestsThatAreOthers : Obligations.RequestsThatAreOthers := by
  intro s code hr
  refine ⟨exec_seen_congr rfl rfl rfl, exec_seen_congr rfl rfl rfl, fun hp => ?_⟩
  obtain ⟨_, _, _, hwrite⟩ := writeClearsThenPrints s code hr
  obtain ⟨_, _, _, hprint⟩ := exec_printLine1 (s := afterOneByte s.cfg.bClear s) hr hp
  refine ⟨_, _, _, hwrite, exec_clear hr, hprint, streamPins_cons s.cfg s.pins _ _, rfl, ?_⟩
  rw [newEvents_of rfl, newEvents_of (List.append_assoc ..),
    filter_notDone_two_requests (byteEvents_wave ..) (streamEvents_wave ..)]
  rfl

/-! ### One `Done` ends every request -/

/-- Primitives that hold no `Done` leave neither a `Done` nor a `Reset` in the trace. -/
theorem eventsOf_of_no_done {as : List Act} (h : ∀ a ∈ as, ∀ st, a ≠ .done st) (g : Diag) :
    (eventsOf g as).all (fun e => !e.isDone && e != .reset) = true := by
  induction as generalizing g with
  | nil => rfl
  | cons a as ih =>
    obtain ⟨ha, has⟩ := List.forall_mem_cons.1 h
    cases a with
    | done st => exact absurd rfl (ha st)
    | pinWrite | delay | diag => simpa [eventsOf, Event.isDone] using ih has _
    | _ => exact ih has g

theorem eventCount_append (as bs : List Act) : eventCount (as ++ bs) = eventCount as + eventCount bs :=
  List.countP_append

@[simp] theorem eventCount_done (st : Status) : eventCount [.done st] = 1 := rfl

@[simp] theorem eventCount_sendInstruction (c : Config) (b : Byte) : eventCount (sendInstruction c b) = 22 := rfl

theorem eventCount_of_sends {c : Config} {as : List Act} {xs : List Sent} (h : Sends c as xs) :
    eventCount as = (streamEvents c xs).length := by
  rw [← eventsOf_length Diag.clear, eventsOf_of_sends h]

theorem streamEvents_chars_length (c : Config) (t : List Byte) :
    (streamEvents c (t.map Sent.char)).length = 22 * t.length := by
  induction t with
  | nil => rfl
  | cons b t ih =>
    have hcons : streamEvents c ((b :: t).map Sent.char) = byteEvents c .DATA b ++ streamEvents c (t.map Sent.char) := rfl
    rw [hcons, List.length_append, byteEvents_length, ih, List.length_cons]
    omega

theorem streamEvents_instr_length (c : Config) (b : Byte) (xs : List Sent) :
    (streamEvents c (.instr b :: xs)).length = 22 + (streamEvents c xs).length :=
  List.length_append

/-- A render sends 22 events a byte (R128, R169). -/
theorem streamEvents_renderSent_length (c : Config) (k : Line) (o : Word) (t : List Byte) :
    (streamEvents c (renderSent k o t)).length = 22 * renderCount k o.toNat t.length := by
  rw [renderSent_eq, streamEvents_instr_length]
  obtain ⟨hfits, e⟩ | ⟨rfl, hwraps, e⟩ := loopSent_cases k o.toNat t
  · rw [e, streamEvents_chars_length, List.length_take]
    cases k with
    | one =>
      have hlen : t.length ≤ 16 - o.toNat := hfits.resolve_left (by simp)
      rw [renderCount, if_pos hlen, Nat.min_eq_right hlen]
      omega
    | two =>
      rw [renderCount, Nat.min_comm]
      omega
  · rw [e, streamEvents_append, List.length_append, streamEvents_instr_length, streamEvents_chars_length,
      streamEvents_chars_length, List.length_take, List.length_take, List.length_drop, renderCount,
      if_neg (Nat.not_le.2 hwraps), Nat.min_eq_left hwraps.le, Nat.min_comm]
    omega

/-- A render sends at most two address bytes and two full lines (R169). -/
theorem renderCount_le (k : Line) (o n : Nat) : renderCount k o n ≤ 34 := by
  cases k with
  | one => simp only [renderCount]; split_ifs <;> omega
  | two => simp only [renderCount]; omega

theorem renderCount_full {n : Nat} (h : 32 ≤ n) : renderCount .one 0 n = 34 := by
  rw [renderCount, if_neg (by omega)]
  omega

theorem eventCount_normDiag_le (l : Word) : eventCount (normDiag l) ≤ 1 := by
  obtain h | h := normDiag_cases l
  · rw [h]; exact Nat.zero_le 1
  · rw [h]; exact le_rfl

theorem eventCount_render_le (c : Config) (t : Vector Byte 50) (present : Bool) (l o : Word) :
    eventCount (render c t present l o) ≤ 749 := by
  cases present with
  | false => exact Nat.one_le_ofNat
  | true =>
    have hdiag := eventCount_normDiag_le l
    have hcount := renderCount_le (norm l) o.toNat (textOf t).length
    rw [render, if_pos rfl, renderText_eq, eventCount_append, eventCount_of_sends (sends_renderText c t l o),
      streamEvents_renderSent_length]
    omega

theorem eventCount_render_lineOne (c : Config) (t : Vector Byte 50) :
    eventCount (render c t true 1#32 0#32) = 22 * renderCount .one 0 (textOf t).length := by
  rw [eventCount_of_sends (sends_render_lineOne c t), streamEvents_renderSent_length]
  rfl

/-- INIT has 164 or 208 events (R140) and `Done`. -/
theorem eventCount_initSequence_le (c : Config) : eventCount (initSequence c) ≤ 209 := by
  rw [← eventsOf_length Diag.clear, eventsOf_initSequence, List.length_append, List.length_singleton]
  cases h : c.wakeFraming with
  | NIBBLE =>
    obtain ⟨hlength, -⟩ := initEvents_counts (initLatches_length_nibble h)
    omega
  | BYTE =>
    obtain ⟨hlength, -⟩ := initEvents_counts (initLatches_length_byte h)
    omega

/-- WRITE sends the most: the clear byte, two address bytes and 32 characters, then `Done` (R185). -/
theorem eventCount_actsOf_le {i : Instr} (hi : isRequestRow i = true) (s : State) : eventCount (actsOf i s) ≤ 771 := by
  have ready {body : List Act} (h : eventCount body ≤ 771) : eventCount (whenReady s body) ≤ 771 := by
    unfold whenReady
    split_ifs
    · exact h
    · decide
  have hrender := eventCount_render_le s.cfg s.text
  cases i with
  | init =>
    simp only [actsOf, initActs]
    split_ifs
    · decide
    · decide
    · exact (eventCount_initSequence_le s.cfg).trans (by decide)
  | clear | cursorOn | cursorOff => exact ready (by simp [eventCount_append])
  | printLine1 | printLine2 | printAt =>
    refine ready ?_
    rw [eventCount_append, eventCount_done]
    exact Nat.succ_le_succ ((hrender ..).trans (by decide))
  | write =>
    have hcount := renderCount_le .one 0 (textOf s.text).length
    refine ready ?_
    rw [eventCount_append, eventCount_append, eventCount_sendInstruction, eventCount_render_lineOne, eventCount_done]
    omega
  | cmdUnsupported | req3 => exact ready (by decide)
  | _ => cases hi

/-- A WRITE of a text that fills the display (R185). -/
theorem eventCount_write_full {s : State} (c : BitVec 8) (hr : s.lifecycle = .READY) (h : 32 ≤ (textOf s.text).length) :
    eventCount (actsOf (.write c) s) = 771 := by
  rw [actsOf, writeActs, whenReady_of_ready hr, eventCount_append, eventCount_append, eventCount_sendInstruction,
    eventCount_render_lineOne, renderCount_full h, eventCount_done]

theorem rspDone_of_trace {t : State} {es : List Event} {st : Status} {g : Diag} (h : t.trace = es ++ [.done st g]) :
    t.rspDone = true := by
  rw [State.rspDone, h, List.getLast?_concat]

/-- Settles O39: a request's list of primitives ends in its one `Done` (`closes_done`), and has at most 771 events. -/
theorem oneDoneEndsEveryRequest : Obligations.OneDoneEndsEveryRequest := by
  intro s r i hi
  obtain ⟨body, st, hacts, hbody⟩ := closes_done (closes_actsOf hi (accept r s))
  have hcount : eventCount (actsOf i (accept r s)) = eventCount body + 1 := by
    rw [hacts, eventCount_append, eventCount_done]
  have hle := eventCount_actsOf_le hi (accept r s)
  have htrace : (performAll (body ++ [.done st]) (accept r s)).trace
      = s.trace ++ (eventsOf Diag.clear body ++ [.done st (performAll body (accept r s)).diag]) := by
    rw [performAll_trace, eventsOf_append, performAll_diag]
    rfl
  have hlast : performAll (body ++ [.done st]) (accept r s) = perform (.done st) (performAll body (accept r s)) :=
    performAll_append ..
  refine ⟨_, eventsOf Diag.clear body, exec_eq_performAll i _, ?trace, eventsOf_of_no_done hbody _, ?length, ?busy,
    ?rspDone, ?reqReady, ?full⟩
  case trace => rw [hacts, htrace, hlast]; rfl
  case length => rw [eventsOf_length]; omega
  case busy => rw [hacts, hlast]; rfl
  case rspDone => rw [hacts]; exact rspDone_of_trace (htrace.trans (List.append_assoc ..).symm)
  case reqReady => rw [hacts, hlast]; rfl
  case full =>
    rintro c rfl hr hlen
    have hfull := eventCount_write_full (s := accept r s) c hr hlen
    rw [eventsOf_length]
    omega

/-! ### Fields that have no effect -/

/-- What an accepted request performs depends on the fields it reads alone (R82, R184). -/
theorem actsOf_accept_of_readsAgree {i : Instr} {r q : Request} (h : readsAgree i r q) (s : State) :
    actsOf i (accept r s) = actsOf i (accept q s) := by
  cases r
  cases q
  cases i with
  | init | write => obtain rfl := h; rfl
  | printLine1 | printLine2 => obtain ⟨rfl, rfl⟩ := h; rfl
  | printAt => obtain ⟨rfl, rfl, rfl, rfl⟩ := h; rfl
  | _ => rfl

/-- The bit of a diagnostic (R24). -/
def diagBit (g : Diag) : DiagKind → Bool
  | .LINE_NORMALISED => g.lineNormalised
  | .NULL_TEXT => g.nullText

theorem diagBit_raise_of_ne {d e : DiagKind} (h : e ≠ d) (g : Diag) : diagBit (g.raise e) d = diagBit g d := by
  cases d <;> cases e
  · exact absurd rfl h
  · rfl
  · rfl
  · exact absurd rfl h

/-- The diagnostics in a trace are those the primitives raise. -/
theorem diag_mem_eventsOf (g : Diag) (as : List Act) (d : DiagKind) : .diag d ∈ eventsOf g as ↔ .diag d ∈ as := by
  induction as generalizing g with
  | nil => exact iff_of_false List.not_mem_nil List.not_mem_nil
  | cons a as ih => cases a <;> simp [eventsOf, ih]

/-- A diagnostic that is not raised keeps its bit. -/
theorem diagBit_diagAfter {as : List Act} {d : DiagKind} (h : .diag d ∉ as) (g : Diag) :
    diagBit (diagAfter g as) d = diagBit g d := by
  induction as generalizing g with
  | nil => rfl
  | cons a as ih =>
    obtain ⟨hhead, htail⟩ := not_or.1 (mt List.mem_cons.2 h)
    cases a with
    | diag e => exact (ih htail _).trans (diagBit_raise_of_ne (fun he => hhead (congrArg Act.diag he.symm)) g)
    | _ => exact ih htail g

theorem newEvents_accepted (as : List Act) (r : Request) (s : State) :
    s.newEvents (performAll as (accept r s)) = eventsOf Diag.clear as :=
  newEvents_of (performAll_trace as (accept r s))

/-- A request that does not raise a diagnostic does not report it. -/
theorem unreported {as : List Act} {d : DiagKind} (h : .diag d ∉ as) (r : Request) (s : State) :
    .diag d ∉ s.newEvents (performAll as (accept r s)) ∧ diagBit (performAll as (accept r s)).diag d = false := by
  constructor
  · rwa [newEvents_accepted, diag_mem_eventsOf]
  · rw [performAll_diag, diagBit_diagAfter h]
    cases d <;> rfl

/-- What sends a byte stream raises no diagnostic. -/
theorem diag_not_mem_of_sends {c : Config} {as : List Act} {xs : List Sent} (h : Sends c as xs) (d : DiagKind) :
    .diag d ∉ as := by
  rw [← diag_mem_eventsOf Diag.clear, eventsOf_of_sends h]
  exact fun hd => absurd (List.all_eq_true.1 (streamEvents_wave c xs) _ hd) Bool.false_ne_true

theorem diag_not_mem_initSequence (c : Config) (d : DiagKind) : .diag d ∉ initSequence c := by
  have hwake (b) : .diag d ∉ wake c b := diag_not_mem_of_sends (sends_wake c b) d
  have hsend (b) : .diag d ∉ sendInstruction c b := diag_not_mem_of_sends (sends_instr c b) d
  simp [initSequence, initPass, hwake, hsend]

theorem diag_not_mem_refuse (d : DiagKind) (st : Status) : .diag d ∉ refuse st := by simp [refuse]

theorem diag_not_mem_initActs (s : State) (d : DiagKind) : .diag d ∉ initActs s := by
  unfold initActs
  split_ifs
  · exact diag_not_mem_refuse d .BAD_STATE
  · exact List.not_mem_cons_of_ne_of_not_mem (by simp) (diag_not_mem_refuse d .SETUP_FAILED)
  · exact diag_not_mem_initSequence s.cfg d

theorem diag_not_mem_whenReady {body : List Act} {d : DiagKind} (s : State) (h : .diag d ∉ body) :
    .diag d ∉ whenReady s body := by
  unfold whenReady
  split_ifs
  · exact h
  · exact diag_not_mem_refuse d .BAD_STATE

/-- A render at a line of the display normalises none (R150). -/
theorem lineNormalised_not_mem_render (c : Config) (t : Vector Byte 50) (present : Bool) (k : Line) (o : Word) :
    .diag .LINE_NORMALISED ∉ render c t present k.number o := by
  cases present with
  | false => simp [render]
  | true =>
    rw [render, if_pos rfl, renderText_eq, normDiag_number]
    exact diag_not_mem_of_sends (sends_renderText c t k.number o) _

/-- A request that is admitted and ends in `Done(OK)`, or is refused. -/
theorem diag_not_mem_whenReady_done {body : List Act} {d : DiagKind} (s : State) (h : .diag d ∉ body) :
    .diag d ∉ whenReady s (body ++ [.done .OK]) :=
  diag_not_mem_whenReady s (List.not_mem_append h (by simp))

/-- Only PRINT_AT has a line to normalise (R184). -/
theorem lineNormalised_not_mem_actsOf {i : Instr} (hi : isRequestRow i = true) (hne : i ≠ .printAt) (s : State) :
    .diag .LINE_NORMALISED ∉ actsOf i s := by
  have hsend (b) := diag_not_mem_of_sends (sends_instr s.cfg b) .LINE_NORMALISED
  have hrender (present k) := lineNormalised_not_mem_render s.cfg s.text present k 0#32
  cases i with
  | init => exact diag_not_mem_initActs s _
  | clear | cursorOn | cursorOff => exact diag_not_mem_whenReady_done s (hsend _)
  | printLine1 => exact diag_not_mem_whenReady_done s (hrender _ .one)
  | printLine2 => exact diag_not_mem_whenReady_done s (hrender _ .two)
  | printAt => exact absurd rfl hne
  | write => exact diag_not_mem_whenReady_done s (List.not_mem_append (hsend _) (hrender true .one))
  | cmdUnsupported | req3 => exact diag_not_mem_whenReady s (diag_not_mem_refuse _ .UNSUPPORTED)
  | _ => cases hi

/-- The one-byte commands have no text to miss (R184). -/
theorem nullText_not_mem_actsOf {i : Instr} (hi : i = .clear ∨ i = .cursorOn ∨ i = .cursorOff) (s : State) :
    .diag .NULL_TEXT ∉ actsOf i s := by
  have hsend (b) := diag_not_mem_of_sends (sends_instr s.cfg b) .NULL_TEXT
  obtain rfl | rfl | rfl := hi
  · exact diag_not_mem_whenReady_done s (hsend _)
  · exact diag_not_mem_whenReady_done s (hsend _)
  · exact diag_not_mem_whenReady_done s (hsend _)

/-- Settles O42: a request's primitives depend on the fields it reads alone, and those of the rows named raise no
such diagnostic. -/
theorem ignoredFieldsHaveNoEffect : Obligations.IgnoredFieldsHaveNoEffect := by
  intro s r q i hi
  refine ⟨fun h => exec_seen_congr rfl rfl (actsOf_accept_of_readsAgree h s), _, exec_eq_performAll i _, ?_, ?_⟩
  · exact fun hne => unreported (lineNormalised_not_mem_actsOf hi hne _) r s
  · exact fun hcommand => unreported (nullText_not_mem_actsOf hcommand _) r s

/-! ### What WRITE shows -/

/-- The clear byte 0x01 on a tracked LCD that waits for a high nibble (R62, R176). -/
theorem byteSink_clear {c : Config} (hc : c.rsCommand ≠ c.rsData) (hclear : c.bClear = 0x01#8) {l : Lcd}
    (hl : l.half = none) : byteSink c .COMMAND c.bClear (some l) = some { l with ddram := [], ac := 0#7 } := by
  rw [byteSink_aligned hc _ _ hl, hclear]
  exact instruction_clear l

/-- A render at line 1, offset 0 of a blank display shows its text alone (R62 to R64, R169). -/
theorem streamSink_renderSent_blank {c : Config} (hc : c.rsCommand ≠ c.rsData) {l : Lcd} (hl : l.half = none)
    (t : List Byte) : ∃ l', streamSink c (some { l with ddram := [], ac := 0#7 }) (renderSent .one 0#32 t) = some l'
      ∧ ∀ a : Nat, Memory.read l'.ddram a = (printedAt .one 0 t a).getD 0x20#8 := by
  obtain ⟨l', hsink, h⟩ := streamSink_renderSent (l := { l with ddram := [], ac := 0#7 }) hc hl rfl .one
    (o := 0#32) (by decide) t
  exact ⟨l', hsink, h.cells⟩

/-- Settles O53: the clear byte blanks the display, and the render that follows, in the same request or in the next, lays out
its text. -/
theorem writeShowsTheTextAlone : Obligations.WriteShowsTheTextAlone := by
  intro s l code hr hc hclear hs hl _
  have hblank : byteSink s.cfg .COMMAND s.cfg.bClear s.sink = some { l with ddram := [], ac := 0#7 } := by
    rw [hs, byteSink_clear hc hclear hl]
  constructor
  · obtain ⟨_, _, _, hwrite⟩ := writeClearsThenPrints s code hr
    obtain ⟨l', hsink, hcells⟩ := streamSink_renderSent_blank hc hl (textOf s.text)
    exact ⟨_, l', hwrite, (congrArg (streamSink s.cfg · _) hblank).trans hsink, hcells⟩
  · intro r hp
    obtain ⟨_, _, _, hprint⟩ := exec_printLine1 (s := accept r (afterOneByte s.cfg.bClear s)) hr hp
    obtain ⟨l', hsink, hcells⟩ := streamSink_renderSent_blank hc hl (textOf (terminate r.text))
    exact ⟨_, _, l', exec_clear hr, hprint, (congrArg (streamSink s.cfg · _) hblank).trans hsink, hcells⟩

end Sys2Proof.Proofs
end

section
/-! SUPPORT. Proofs of the statements about 46_common_laws.md: what no row but INIT changes, and what no row at all changes
(R193, R27, R28, R31). -/

namespace Sys2Proof.Proofs

open Sys2Proof.Machine Sys2Proof.Laws

/-! ### The lifecycle and INIT's step -/

/-- The two registers that only INIT writes are in `t` as in `s` (R193, R28). -/
def SameProgress (s t : State) : Prop := t.lifecycle = s.lifecycle ∧ t.initStep = s.initStep

theorem SameProgress.trans {s t u : State} (h1 : SameProgress s t) (h2 : SameProgress t u) : SameProgress s u :=
  ⟨h2.1.trans h1.1, h2.2.trans h1.2⟩

theorem perform_report_sameProgress {a : Act} (h : isReport a = true) (s : State) : SameProgress s (perform a s) := by
  cases a with
  | diag | done => exact ⟨rfl, rfl⟩
  | _ => cases h

theorem performAll_reports_sameProgress {as : List Act} (h : as.all isReport = true) (s : State) :
    SameProgress s (performAll as s) := by
  induction as generalizing s with
  | nil => exact ⟨rfl, rfl⟩
  | cons a as ih =>
    obtain ⟨ha, has⟩ := Bool.and_eq_true_iff.1 h
    exact (perform_report_sameProgress ha s).trans (ih has _)

theorem performAll_sends_sameProgress {c : Config} {as : List Act} {xs : List Sent} (h : Sends c as xs) {s : State}
    (hc : s.cfg = c) : SameProgress s (performAll as s) := by
  obtain ⟨l, n, i, e⟩ := h s hc
  rw [e]
  exact ⟨rfl, rfl⟩

theorem SendsBetweenReports.sameProgress {as : List Act} {s : State} (h : SendsBetweenReports s.cfg as) :
    SameProgress s (performAll as s) := by
  obtain ⟨pre, body, post, xs, rfl, hpre, hbody, hpost⟩ := h
  have h1 := performAll_reports_sameProgress hpre s
  have h2 := performAll_sends_sameProgress hbody (performAll_cfg pre s)
  have h3 := performAll_reports_sameProgress hpost (performAll body (performAll pre s))
  rw [performAll_append, performAll_append]
  exact (h1.trans h2).trans h3

/-- A frame writes lines only (R115); every other row but INIT is a byte stream between reports. -/
theorem actsOf_sameProgress {i : Instr} (hn : isInitRow i = false) (s : State) :
    SameProgress s (performAll (actsOf i s) s) := by
  by_cases hf : ∃ r n, i = .frame r n
  · obtain ⟨r, n, rfl⟩ := hf
    rw [actsOf, performAll_sendFrame]
    exact ⟨rfl, rfl⟩
  · exact (actsOf_sendsBetweenReports hn (fun r n he => hf ⟨r, n, he⟩) s).sameProgress

/-- Settles O60: `actsOf_sameProgress` for every row but INIT, `performAll_sameFixed` for every row. -/
theorem onlyInitMovesTheLifecycle : Obligations.OnlyInitMovesTheLifecycle := by
  intro i s
  obtain ⟨hcfg, hkind, hcode, hsetup, htext, hpresent, hline, hoffset, hpending, hinputs⟩ :=
    performAll_sameFixed (actsOf i s) s
  exact ⟨_, exec_eq_performAll i s, fun hn => actsOf_sameProgress hn s, hkind, hcode, hsetup, htext, hpresent, hline,
    hoffset, hcfg, hinputs, hpending⟩

end Sys2Proof.Proofs
end

section
/-! SUPPORT. Proofs of the statements about 60_exceptions.md: the outcome of a request by the order of checks (R208), what a
refusal leaves (R209), the admission table (R203), and a normalised line (R205). -/

namespace Sys2Proof.Proofs

open Sys2Proof.Machine Sys2Proof.Laws

/-! ### The outcome of a request -/

/-- What a state reports of the last request: its status and its diagnostics (R23, R24). -/
def reported (s : State) : Status × Diag := (s.status, s.diag)

theorem reported_refuse (st : Status) (s : State) : reported (performAll (refuse st) s) = (st, s.diag) := rfl

/-- A byte stream raises no diagnostic before its `Done`. -/
theorem reported_of_sends {s : State} {as : List Act} {xs : List Sent} (h : Sends s.cfg as xs) (st : Status) :
    reported (performAll (as ++ [.done st]) s) = (st, s.diag) := by
  obtain ⟨l, n, j, e⟩ := performAll_sends_done h st
  rw [e]
  rfl

/-- A print reports an absent text, and otherwise a line out of range (R161, R150). -/
theorem reported_render {s : State} (hg : s.diag = Diag.clear) (present : Bool) (l o : Word) :
    reported (performAll (render s.cfg s.text present l o ++ [.done .OK]) s)
      = (.OK, { lineNormalised := present && !lineInRange l, nullText := !present }) := by
  cases present with
  | false => simp [render, perform, reported, hg, Diag.raise, Diag.clear]
  | true =>
    have hbody := reported_of_sends (sends_renderText (performAll (normDiag l) s).cfg s.text l o) .OK
    rw [performAll_cfg] at hbody
    rw [render, if_pos rfl, renderText_eq, List.append_assoc, performAll_append, hbody, performAll_normDiag, hg]
    rfl

/-- A line of the display is in range. -/
theorem reported_render_number {s : State} (hg : s.diag = Diag.clear) (present : Bool) (k : Line) (o : Word) :
    reported (performAll (render s.cfg s.text present k.number o ++ [.done .OK]) s)
      = (.OK, { lineNormalised := false, nullText := !present }) := by
  have hrange : lineInRange k.number = true := by cases k <;> rfl
  rw [reported_render hg, hrange, Bool.not_true, Bool.and_false]

/-- What INIT performs, by its two checks (R136, R142, R175). -/
theorem initActs_cases (s : State) :
    (s.lifecycle ≠ .UNINIT ∧ initActs s = refuse .BAD_STATE)
    ∨ (s.lifecycle = .UNINIT ∧ s.setupOk = false ∧ initActs s = .setLifecycle .FAILED :: refuse .SETUP_FAILED)
    ∨ (s.lifecycle = .UNINIT ∧ s.setupOk = true ∧ initActs s = initSequence s.cfg) := by
  unfold initActs
  split_ifs with hl hk
  · exact .inl ⟨hl, rfl⟩
  · exact .inr (.inl ⟨not_not.1 hl, hk, rfl⟩)
  · exact .inr (.inr ⟨not_not.1 hl, Bool.not_eq_false _ ▸ hk, rfl⟩)

theorem reported_initSequence (s : State) : reported (performAll (initSequence s.cfg) s) = (.OK, s.diag) := by
  rw [performAll_initSequence]
  rfl

theorem reported_initActs (code : BitVec 8) (r : Request) (s : State) :
    reported (performAll (initActs (accept r s)) (accept r s)) = outcomeOf s.lifecycle (.init code) r := by
  obtain ⟨(hl : s.lifecycle ≠ .UNINIT), e⟩ | ⟨(hl : s.lifecycle = .UNINIT), (hk : r.setupOk = false), e⟩
    | ⟨(hl : s.lifecycle = .UNINIT), (hk : r.setupOk = true), e⟩ := initActs_cases (accept r s)
  · have ho : outcomeOf s.lifecycle (.init code) r = (.BAD_STATE, Diag.clear) := by simp [outcomeOf, isInitRow, hl]
    rw [e, ho]
    rfl
  · have ho : outcomeOf s.lifecycle (.init code) r = (.SETUP_FAILED, Diag.clear) := by
      simp [outcomeOf, isInitRow, hl, hk]
    rw [e, ho]
    rfl
  · have ho : outcomeOf s.lifecycle (.init code) r = (.OK, Diag.clear) := by simp [outcomeOf, isInitRow, hl, hk]
    rw [e, ho]
    exact reported_initSequence (accept r s)

/-- A row other than INIT, in `READY` (R182, R184). -/
theorem reported_admitted {i : Instr} (hi : isRequestRow i = true) (hn : isInitRow i = false) (r : Request) {s : State}
    (hr : s.lifecycle = .READY) :
    reported (performAll (actsOf i (accept r s)) (accept r s)) = outcomeOf .READY i r := by
  have ready {body : List Act} {o : Status × Diag} (h : reported (performAll body (accept r s)) = o) :
      reported (performAll (whenReady (accept r s) body) (accept r s)) = o := by
    rwa [whenReady_of_ready (s := accept r s) hr]
  have hsend (b) := reported_of_sends (s := accept r s) (sends_instr s.cfg b) .OK
  cases i with
  | init => cases hn
  | clear | cursorOn | cursorOff => exact ready (hsend _)
  | printLine1 => exact ready (reported_render_number rfl _ .one _)
  | printLine2 => exact ready (reported_render_number rfl _ .two _)
  | printAt => exact ready (reported_render rfl _ _ _)
  | write =>
    exact ready (reported_of_sends (s := accept r s) ((sends_instr s.cfg _).append (sends_render_lineOne s.cfg _)) .OK)
  | cmdUnsupported | req3 => exact ready (reported_refuse .UNSUPPORTED _)
  | _ => cases hi

/-- Outside `READY` the lifecycle is checked before anything else of a row other than INIT (R203, R208). -/
theorem outcomeOf_of_not_ready {l : Lifecycle} {i : Instr} (hn : isInitRow i = false) (hl : l ≠ .READY) (r : Request) :
    outcomeOf l i r = (.BAD_STATE, Diag.clear) := by
  unfold outcomeOf
  rw [hn, if_neg Bool.false_ne_true, if_pos hl]

/-- Every accepted request reports the first outcome that applies (R208). -/
theorem reported_actsOf {i : Instr} (hi : isRequestRow i = true) (r : Request) (s : State) :
    reported (performAll (actsOf i (accept r s)) (accept r s)) = outcomeOf s.lifecycle i r := by
  cases hn : isInitRow i with
  | true =>
    cases i with
    | init code => exact reported_initActs code r s
    | _ => cases hn
  | false =>
    by_cases hr : s.lifecycle = .READY
    · rw [hr, reported_admitted hi hn r hr]
    · rw [actsOf_of_not_ready (s := accept r s) hi hn hr, outcomeOf_of_not_ready hn hr]
      rfl

/-- An absent text is reported before a line out of range is looked at (R208). -/
theorem outcomeOf_one_diag (l : Lifecycle) (i : Instr) (r : Request) :
    ¬((outcomeOf l i r).2.lineNormalised = true ∧ (outcomeOf l i r).2.nullText = true) := by
  unfold outcomeOf
  split_ifs
  · decide
  · decide
  · decide
  · decide
  · cases i with
    | printAt => cases r.textPresent <;> simp
    | _ => simp [Diag.clear]

/-- Settles O38: what a request reports is `outcomeOf`, row by row. -/
theorem outcomeFollowsThePriority : Obligations.OutcomeFollowsThePriority := by
  intro s r i hi
  have hreport := reported_actsOf hi r s
  have hone := outcomeOf_one_diag s.lifecycle i r
  rw [← hreport] at hone
  exact ⟨_, exec_eq_performAll i _, hreport, hone⟩

/-! ### Refusals -/

theorem initSequence_ends (c : Config) : ∃ body, initSequence c = body ++ [.done .OK] :=
  ⟨_, (List.append_assoc _ [Act.ghostReady, .setLifecycle .READY] [.done .OK]).symm⟩

/-- A request is refused by its one `Done`, an INIT after a failed setup moves to `FAILED` first, and every other request ends
in `Done(OK)` (R209, R136). -/
theorem actsOf_cases {i : Instr} (hi : isRequestRow i = true) (s : State) :
    (∃ st, st ≠ .SETUP_FAILED ∧ actsOf i s = refuse st)
    ∨ actsOf i s = .setLifecycle .FAILED :: refuse .SETUP_FAILED
    ∨ ∃ body, actsOf i s = body ++ [.done .OK] := by
  have ready {body : List Act} (h : (∃ st, st ≠ .SETUP_FAILED ∧ body = refuse st) ∨ ∃ b, body = b ++ [.done .OK]) :
      (∃ st, st ≠ .SETUP_FAILED ∧ whenReady s body = refuse st)
      ∨ whenReady s body = .setLifecycle .FAILED :: refuse .SETUP_FAILED
      ∨ ∃ b, whenReady s body = b ++ [.done .OK] := by
    unfold whenReady
    split_ifs
    · exact h.imp_right .inr
    · exact .inl ⟨.BAD_STATE, by decide, rfl⟩
  cases i with
  | init =>
    obtain ⟨-, e⟩ | ⟨-, -, e⟩ | ⟨-, -, e⟩ := initActs_cases s
    · exact .inl ⟨.BAD_STATE, by decide, e⟩
    · exact .inr (.inl e)
    · exact .inr (.inr ((initSequence_ends s.cfg).imp fun _ h => e.trans h))
  | cmdUnsupported | req3 => exact ready (.inl ⟨.UNSUPPORTED, by decide, rfl⟩)
  | clear | cursorOn | cursorOff | printLine1 | printLine2 | printAt | write => exact ready (.inr ⟨_, rfl⟩)
  | _ => cases hi

/-- A request that does not end in `OK` performs its `Done`, behind the move to `FAILED` where the setup failed. -/
theorem actsOf_of_not_ok {i : Instr} (hi : isRequestRow i = true) {s : State}
    (h : (performAll (actsOf i s) s).status ≠ .OK) :
    (∃ st, st ≠ .SETUP_FAILED ∧ actsOf i s = refuse st)
    ∨ actsOf i s = .setLifecycle .FAILED :: refuse .SETUP_FAILED := by
  obtain hrefused | hfailed | ⟨body, e⟩ := actsOf_cases hi s
  · exact .inl hrefused
  · exact .inr hfailed
  · rw [e, performAll_append] at h
    exact absurd rfl h

/-- Settles O37: the one or two primitives of a refusal, performed. -/
theorem refusalsTouchNothing : Obligations.RefusalsTouchNothing := by
  intro s t r i hi hexec ht
  obtain rfl : performAll (actsOf i (accept r s)) (accept r s) = t :=
    Host.Outcome.next.inj ((exec_eq_performAll i _).symm.trans hexec)
  obtain ⟨st, hst, e⟩ | e := actsOf_of_not_ok hi ht
  · have hstatus : (performAll (refuse st) (accept r s)).status = st := rfl
    rw [e, hstatus, if_neg hst]
    rfl
  · rw [e]
    rfl

/-! ### The admission table -/

/-- `BAD_STATE` is the outcome of the requests the table does not admit, and of no other (R203, R208). -/
theorem outcomeOf_badState_iff (l : Lifecycle) (i : Instr) (r : Request) :
    (outcomeOf l i r).1 = .BAD_STATE ↔ admitted l i = false := by
  unfold outcomeOf admitted
  split_ifs with hn hl hk hl
  · simp [hl]
  · simp [not_not.1 hl]
  · simp [not_not.1 hl]
  · simp [hl]
  · cases i <;> simp [not_not.1 hl]

theorem status_badState_iff {i : Instr} (hi : isRequestRow i = true) (r : Request) (s : State) :
    (performAll (actsOf i (accept r s)) (accept r s)).status = .BAD_STATE ↔ admitted s.lifecycle i = false := by
  rw [← outcomeOf_badState_iff s.lifecycle i r, ← reported_actsOf hi r s]
  rfl

/-- Settles O36: the outcome is `BAD_STATE` just outside the table, and a refusal touches nothing. -/
theorem lifecycleAdmitsByTheTable : Obligations.LifecycleAdmitsByTheTable := by
  intro s r i hi
  have hexec := exec_eq_performAll i (accept r s)
  constructor
  · intro ha
    have hbad := (status_badState_iff hi r s).2 ha
    have hstate := refusalsTouchNothing s _ r i hi hexec (by rw [hbad]; decide)
    rw [hexec]
    rw [hbad] at hstate
    exact congrArg Host.Outcome.next hstate
  · intro ha
    exact ⟨_, hexec, fun hbad => Bool.false_ne_true (((status_badState_iff hi r s).1 hbad).symm.trans ha)⟩

/-! ### A normalised line -/

/-- Settles O34: the closed form of O28 at the given line and at line 1; only the diagnostic differs. -/
theorem normalisedLineRunsAsLineOne : Obligations.NormalisedLineRunsAsLineOne := by
  intro s r hr hp h1 h2
  obtain ⟨l, n, j, hgiven⟩ :=
    printsRenderInClosedForm (accept r s) .printAt r.line r.offset hr hp (.inr (.inr ⟨rfl, rfl, rfl⟩))
  obtain ⟨l', n', j', hone⟩ :=
    printsRenderInClosedForm (accept { r with line := 1#32 } s) .printAt 1#32 r.offset hr hp (.inr (.inr ⟨rfl, rfl, rfl⟩))
  have hbad : (!(r.line == 1#32 || r.line == 2#32)) = true := by simp [h1, h2]
  simp only [hbad, if_neg h2] at hgiven
  exact ⟨_, _, streamEvents s.cfg (renderSent .one r.offset (textOf (terminate r.text))), hgiven, hone, rfl, rfl,
    List.all_eq_true.2 (List.filter_eq_self.1 (filter_streamEvents_diag ..)), rfl, rfl, rfl, rfl⟩

end Sys2Proof.Proofs
end

section
/-! SUPPORT. Proofs of the statements about 70_reset_and_hazards.md: the reset values (R230, R29), a reset of a running request
(R233), and the least time of the requests (R249). -/

namespace Sys2Proof.Proofs

open Sys2Proof.Machine Sys2Proof.Laws

/-! ### Reset -/

theorem step_of_reset {s : State} {rest : List Input} (h : s.inputs = .reset :: rest) :
    step s = .next (applyReset { s with inputs := rest }) := by
  simp only [step, h]

/-- A reset in mid-request loses the LCD (R233). -/
theorem applyReset_sink_of_busy {s : State} (hb : s.busy = true) : (applyReset s).sink = none := if_pos (.inl hb)

/-- A reset of an idle driver with E low does not touch it (R230). -/
theorem applyReset_sink_of_idle {s : State} (hb : s.busy = false) (he : s.pins.e = false) :
    (applyReset s).sink = s.sink :=
  if_neg (by simp [hb, he])

/-- Settles O49: `applyReset`, register by register. -/
theorem resetGivesTheResetValues : Obligations.ResetGivesTheResetValues := by
  intro s rest h
  exact ⟨_, step_of_reset h, rfl, rfl, rfl, rfl, rfl, rfl, rfl, rfl, rfl,
    fun hb he => applyReset_sink_of_idle (s := { s with inputs := rest }) hb he,
    fun hb => applyReset_sink_of_busy (s := { s with inputs := rest }) hb⟩

/-- Settles O50: short of its last event the held request is still running, and the next step is its reset. -/
theorem resetCutsARequestShort : Obligations.ResetCutsARequestShort := by
  intro s u r k rest hb hi hexec hk
  obtain ⟨a, ha⟩ : ∃ a : State, a = { s with inputs := .reset :: rest } := ⟨_, rfl⟩
  rw [← ha] at hexec
  obtain rfl : performAll (requestActs r a) (accept r a) = u :=
    Host.Outcome.next.inj ((exec_eq_performAll _ _).symm.trans hexec)
  have hevents : s.newEvents (performAll (requestActs r a) (accept r a)) = eventsOf Diag.clear (requestActs r a) := by
    rw [← newEvents_accepted _ r a, ha]
    rfl
  rw [hevents, eventsOf_length] at hk
  have hbusy : (emitEvents k (requestActs r a) (accept r a)).busy = true :=
    emitEvents_busy_of_short (closes_requestActs r a) hk (accept r a)
  have htrace : (emitEvents k (requestActs r a) (accept r a)).trace
      = s.trace ++ (eventsOf Diag.clear (requestActs r a)).take k := by
    rw [emitEvents_trace, performAll_trace, eventsOf_split, accept_trace, accept_diag, ha]
  have hheld : step s = .next (emitEvents k (requestActs r a) (accept r a)) := ha ▸ step_of_held_request hb hi
  have hreset := step_of_reset (s := emitEvents k (requestActs r a) (accept r a)) (rest := rest) (by
    rw [emitEvents_inputs, accept_inputs, ha])
  refine ⟨_, (run_succ_of_step (M := Sys2Proof.core) hheld 1).trans (run_succ_of_step (M := Sys2Proof.core) hreset 0),
    ?_, rfl, rfl, rfl, rfl, applyReset_sink_of_busy hbusy, rfl⟩
  rw [hevents, ← List.append_assoc, ← htrace]
  rfl

/-! ### Least times -/

/-- A byte stream takes the time of one frame for each eleven events (R116). -/
theorem leastTime_stream (c : Config) (xs : List Sent) :
    11 * leastTime (streamEvents c xs) = (streamEvents c xs).length * tNib c := by
  induction xs with
  | nil => simp [streamEvents, leastTime]
  | cons x xs ih =>
    have hcons : streamEvents c (x :: xs) = sentEvents c x ++ streamEvents c xs := rfl
    rw [hcons, leastTime_append, List.length_append, Nat.mul_add, Nat.add_mul, ih, leastTime_sent, sentEvents_length,
      Nat.mul_assoc]

/-- Two frames a byte (R128), the bytes counted by their 22 events. -/
theorem leastTime_of_bytes {c : Config} {xs : List Sent} {n : Nat} (h : (streamEvents c xs).length = 22 * n) :
    leastTime (streamEvents c xs) = 2 * n * tNib c := by
  have htime := leastTime_stream c xs
  rw [h] at htime
  apply Nat.eq_of_mul_eq_mul_left (show 0 < 11 by decide)
  rw [htime]
  ring

theorem leastTime_render (c : Config) (k : Line) (o : Word) (t : List Byte) :
    leastTime (streamEvents c (renderSent k o t)) = 2 * renderCount k o.toNat t.length * tNib c :=
  leastTime_of_bytes (streamEvents_renderSent_length c k o t)

/-- A render behind one more byte (R183). -/
theorem leastTime_instr_render (c : Config) (b : Byte) (k : Line) (o : Word) (t : List Byte) :
    leastTime (streamEvents c (.instr b :: renderSent k o t)) = 2 * (1 + renderCount k o.toNat t.length) * tNib c :=
  leastTime_of_bytes (by rw [streamEvents_instr_length, streamEvents_renderSent_length, Nat.mul_add])

/-- `Done` takes no time (R11). -/
theorem leastTime_append_done (es : List Event) (st : Status) (g : Diag) :
    leastTime (es ++ [.done st g]) = leastTime es := leastTime_append ..

/-- The diagnostic of a line takes no time (R11). -/
theorem leastTime_normalised (b : Bool) (es : List Event) :
    leastTime ((if b then [.diag .LINE_NORMALISED] else []) ++ es) = leastTime es := by
  cases b <;> rfl

/-- A request that does not end in `OK` has no delay (R209). -/
theorem leastTime_of_not_ok {i : Instr} (hi : isRequestRow i = true) {s : State}
    (h : (performAll (actsOf i s) s).status ≠ .OK) : leastTime (eventsOf s.diag (actsOf i s)) = 0 := by
  obtain ⟨st, -, e⟩ | e := actsOf_of_not_ok hi h
  · rw [e]
    rfl
  · rw [e]
    rfl

/-- Each of the three commands sends some byte. -/
theorem exists_sendsOne (s : State) {i : Instr} (h : i = .clear ∨ i = .cursorOn ∨ i = .cursorOff) :
    ∃ b, SendsOne s i b := by
  obtain rfl | rfl | rfl := h
  · exact ⟨_, .inl ⟨rfl, rfl⟩⟩
  · exact ⟨_, .inr (.inl ⟨rfl, rfl⟩)⟩
  · exact ⟨_, .inr (.inr ⟨rfl, rfl⟩)⟩

/-- Settles O55: two frames for each byte of what O26, O28 and O29 say is sent, counted by R169. -/
theorem leastTimeOfTheCommands : Obligations.LeastTimeOfTheCommands := by
  intro s
  refine ⟨fun hc => by rw [hc, tNib_default], fun i t hi hexec ht => ?notOk, fun hr =>
    ⟨fun i hi => ?oneByte, fun i line offset hp hi => ?print, fun c => ?write, fun hlen => ?sixteen, fun hlen => ?full⟩⟩
  case notOk =>
    obtain rfl : performAll (actsOf i s) s = t := Host.Outcome.next.inj ((exec_eq_performAll i s).symm.trans hexec)
    rw [newEvents_of (performAll_trace _ _)]
    exact leastTime_of_not_ok hi ht
  case oneByte =>
    obtain ⟨b, hb⟩ := exists_sendsOne s hi
    refine ⟨_, exec_of_sendsOne hr hb, ?_⟩
    rw [newEvents_of rfl, leastTime_append_done, leastTime_byte]
  case print =>
    obtain ⟨_, _, _, hexec⟩ := printsRenderInClosedForm s i line offset hr hp hi
    refine ⟨_, hexec, ?_⟩
    rw [newEvents_of rfl, leastTime_append_done, leastTime_normalised, leastTime_render]
  case write =>
    obtain ⟨_, _, _, hexec⟩ := writeClearsThenPrints s c hr
    refine ⟨_, hexec, ?_⟩
    rw [newEvents_of rfl, leastTime_append_done]
    exact leastTime_instr_render ..
  case sixteen => rw [hlen]; rfl
  case full => rw [renderCount_full hlen]; exact ⟨rfl, rfl⟩

end Sys2Proof.Proofs
end
